-- ==== Sys2Proof/Word.lean ====
section
/-! DEFINITION. The widths of the block: a byte (00_scope.md R8), a register (10_state.md R22: every register is 32 bits) and a
host bus offset (20_memory.md R52: 16 bits). No value is signed (R8). -/

namespace Sys2Proof

/-- A byte: a buffer byte, a character code, a command code (00_scope.md R8, R12). -/
abbrev Byte := BitVec 8

/-- A register's value (10_state.md R22). -/
abbrev Word := BitVec 32

/-- A host bus offset from the block's base (20_memory.md R52). -/
abbrev Offset := BitVec 16

end Sys2Proof
end

