-- ==== Sys2Proof/Config.lean ====
section
/-! DEFINITION. The implementation parameters of 00_scope.md R7. BUF_BYTES ranges over 64 to 4096 and is an argument of every
meaning (State holds it, assumption 3). BASE, DEVICE_PKMODE and ID14_ORDER are OPEN: opaque constants, so that nothing can be
proved of their values (assumption 9). -/

namespace Sys2Proof

/-- The capacity of each byte buffer: any integer with 64 <= BUF_BYTES <= 4096 (00_scope.md R7). -/
abbrev BufSize := { n : Nat // 64 ≤ n ∧ n ≤ 4096 }

/-- The spec's default for BUF_BYTES (00_scope.md R7, 92_eei_decisions.md D4). -/
def defaultBufSize : BufSize := ⟨1024, by decide⟩

/-- The two byte orders of a 14-bit number (42_int7.md R140): high-first and low-first. -/
inductive ByteOrder where
  | hl
  | lh
  deriving DecidableEq, Repr, Inhabited

/-- `BASE`, the host-side address of the block's offset 0: OPEN, chosen by the platform (00_scope.md R7). -/
opaque Config.base : Nat

/-- `DEVICE_PKMODE`, the CFG.PKMODE value the device expects: OPEN (00_scope.md R7). -/
opaque Config.devicePkmode : Bool

/-- `ID14_ORDER`, the byte order of effect and parameter ids on the wire: OPEN (00_scope.md R7). -/
opaque Config.id14Order : ByteOrder

/-- The protocol fields that carry a 14-bit number (42_int7.md R141). -/
inductive ProtocolField where
  | presetNumber
  | tempo
  | effectId
  | parameterId
  | gridFlatId
  | nameIndex
  deriving DecidableEq, Repr

/-- Which order each protocol field uses (42_int7.md R141): for the host, which chooses the command. -/
def fieldOrder : ProtocolField → ByteOrder
  | .presetNumber => .hl
  | .tempo => .lh
  | .effectId => Config.id14Order
  | .parameterId => Config.id14Order
  | .gridFlatId => Config.id14Order
  | .nameIndex => Config.id14Order

end Sys2Proof
end

