-- ==== Sys2Proof/Syntax.lean ====
section
/-! DEFINITION. The instruction set: one constructor per row of spec/opcode_table.json. A command has no operand in its word
(30_encoding.md R70, R71): its operands are the values in the block's registers and input buffer when CMD is written. A host
access carries its offset, and a write its data (30_encoding.md R72). -/

namespace Sys2Proof

/-- The 14 commands (30_encoding.md R73) and the four kinds of host access (20_memory.md R51). -/
inductive Instr where
  /-- NOP, code 0x00 (40_control.md R92). -/
  | nop
  /-- CKSUM, code 0x01 (41_envelope.md R105). -/
  | cksum
  /-- WITHCK, code 0x02 (41_envelope.md R108). -/
  | withck
  /-- WRAP, code 0x03 (41_envelope.md R111). -/
  | wrap
  /-- FRAMEDEC, code 0x04 (41_envelope.md R120). -/
  | framedec
  /-- ENC14HL, code 0x10 (42_int7.md R142). -/
  | enc14hl
  /-- ENC14LH, code 0x11 (42_int7.md R143). -/
  | enc14lh
  /-- DEC14HL, code 0x12 (42_int7.md R145). -/
  | dec14hl
  /-- DEC14LH, code 0x13 (42_int7.md R146). -/
  | dec14lh
  /-- DEC21, code 0x14 (42_int7.md R151). -/
  | dec21
  /-- NAMEENC32, code 0x20 (43_names.md R171). -/
  | nameenc32
  /-- NAMEDEC32, code 0x21 (43_names.md R173). -/
  | namedec32
  /-- PACKB, code 0x22 (43_names.md R183). -/
  | packb
  /-- UNPACKB, code 0x23 (43_names.md R190). -/
  | unpackb
  /-- RD, kind 0b00: RW32, read one register (20_memory.md R51). -/
  | rd (offset : Offset)
  /-- WR, kind 0b01: WW32, write one register (20_memory.md R51). -/
  | wr (offset : Offset) (data : Word)
  /-- RDB, kind 0b10: RB8, read one buffer byte (20_memory.md R51). -/
  | rdb (offset : Offset)
  /-- WRB, kind 0b11: WB8, write one buffer byte (20_memory.md R51). -/
  | wrb (offset : Offset) (data : Byte)
  deriving DecidableEq, Repr

end Sys2Proof
end

