-- ==== Sys2Proof/Decode.lean ====
section
/-! DEFINITION. Decoding and encoding. A host access is the triple `(kind, offset, data)` of 30_encoding.md R72; a command is an
8-bit code written by a WW32 to CMD at offset 0x0000 (30_encoding.md R70, R73). Decoding is total: every triple is one of the
four access kinds, and a word write to CMD of a code of the command map is that command. A reserved code is rejected by name
(30_encoding.md R74). -/

namespace Sys2Proof

/-- A host access as a triple (30_encoding.md R72). A byte write uses `data[7:0]` (20_memory.md R55); a read uses no data. -/
structure HostAccess where
  kind : BitVec 2
  offset : Offset
  data : Word
  deriving DecidableEq, Repr

/-- Why a command code is no instruction. -/
inductive DecodeReject where
  /-- One of the 242 reserved codes (30_encoding.md R74). -/
  | reservedCode (code : Byte)
  deriving DecidableEq, Repr

/-- The offset of CMD (20_memory.md R52). -/
def cmdOffset : Offset := 0x0000#16

/-- The command map (30_encoding.md R73). -/
def commandTable : List (Byte × Instr) :=
  [(0x00#8, .nop), (0x01#8, .cksum), (0x02#8, .withck), (0x03#8, .wrap), (0x04#8, .framedec),
   (0x10#8, .enc14hl), (0x11#8, .enc14lh), (0x12#8, .dec14hl), (0x13#8, .dec14lh), (0x14#8, .dec21),
   (0x20#8, .nameenc32), (0x21#8, .namedec32), (0x22#8, .packb), (0x23#8, .unpackb)]

/-- A code selects the row whose code equals it, and no other row (30_encoding.md R73); every other code is reserved (R74). -/
def decodeCode (code : Byte) : Except DecodeReject Instr :=
  match commandTable.find? (fun row => row.1 == code) with
  | some row => .ok row.2
  | none => .error (.reservedCode code)

/-- The access a triple is, by its kind code (30_encoding.md R72). -/
def decodeKind (x : HostAccess) : Instr :=
  if x.kind = 0b00#2 then .rd x.offset
  else if x.kind = 0b01#2 then .wr x.offset x.data
  else if x.kind = 0b10#2 then .rdb x.offset
  else .wrb x.offset (x.data.setWidth 8)

/-- A word write to CMD of a code of the map is the command it names (30_encoding.md R70: bits 31 to 8 are ignored). -/
def resolveCommand : Instr → Instr
  | .wr offset data =>
    if offset = cmdOffset then
      match decodeCode (data.setWidth 8) with
      | .ok i => i
      | .error _ => .wr offset data
    else .wr offset data
  | .nop => .nop
  | .cksum => .cksum
  | .withck => .withck
  | .wrap => .wrap
  | .framedec => .framedec
  | .enc14hl => .enc14hl
  | .enc14lh => .enc14lh
  | .dec14hl => .dec14hl
  | .dec14lh => .dec14lh
  | .dec21 => .dec21
  | .nameenc32 => .nameenc32
  | .namedec32 => .namedec32
  | .packb => .packb
  | .unpackb => .unpackb
  | .rd offset => .rd offset
  | .rdb offset => .rdb offset
  | .wrb offset data => .wrb offset data

/-- The instruction a host access is. -/
def decodeAccess (x : HostAccess) : Instr := resolveCommand (decodeKind x)

/-- A command's code (30_encoding.md R73); a host access has none. -/
def commandCode : Instr → Option Byte
  | .nop => some 0x00#8
  | .cksum => some 0x01#8
  | .withck => some 0x02#8
  | .wrap => some 0x03#8
  | .framedec => some 0x04#8
  | .enc14hl => some 0x10#8
  | .enc14lh => some 0x11#8
  | .dec14hl => some 0x12#8
  | .dec14lh => some 0x13#8
  | .dec21 => some 0x14#8
  | .nameenc32 => some 0x20#8
  | .namedec32 => some 0x21#8
  | .packb => some 0x22#8
  | .unpackb => some 0x23#8
  | .rd _ => none
  | .wr _ _ => none
  | .rdb _ => none
  | .wrb _ _ => none

/-- The host access that starts a command: `WR CMD, <code>` (30_encoding.md R78). -/
def cmdWrite (code : Byte) : HostAccess := ⟨0b01#2, cmdOffset, code.setWidth 32⟩

/-- The host access of an instruction (30_encoding.md R72, R73). -/
def encode : Instr → HostAccess
  | .nop => cmdWrite 0x00#8
  | .cksum => cmdWrite 0x01#8
  | .withck => cmdWrite 0x02#8
  | .wrap => cmdWrite 0x03#8
  | .framedec => cmdWrite 0x04#8
  | .enc14hl => cmdWrite 0x10#8
  | .enc14lh => cmdWrite 0x11#8
  | .dec14hl => cmdWrite 0x12#8
  | .dec14lh => cmdWrite 0x13#8
  | .dec21 => cmdWrite 0x14#8
  | .nameenc32 => cmdWrite 0x20#8
  | .namedec32 => cmdWrite 0x21#8
  | .packb => cmdWrite 0x22#8
  | .unpackb => cmdWrite 0x23#8
  | .rd offset => ⟨0b00#2, offset, 0#32⟩
  | .wr offset data => ⟨0b01#2, offset, data⟩
  | .rdb offset => ⟨0b10#2, offset, 0#32⟩
  | .wrb offset data => ⟨0b11#2, offset, data.setWidth 32⟩

/-- The host access that a table word stands for (assumption 4). A word of 8 to 32 bits is the data of a WW32 to CMD; any other
is a triple: kind in bits 1:0, offset in bits 17:2, data in bits 49:18. -/
def tableAccess (nbits w : Nat) : HostAccess :=
  if 8 ≤ nbits ∧ nbits ≤ 32 then ⟨0b01#2, cmdOffset, BitVec.ofNat 32 w⟩
  else ⟨BitVec.ofNat 2 w, BitVec.ofNat 16 (w >>> 2), BitVec.ofNat 32 (w >>> 18)⟩

/-- The instruction the decoder reads from a table word (assumption 4): a command word by the command map, a triple by its kind
code. -/
def decodeTableWord (nbits w : Nat) : Option Instr :=
  if 8 ≤ nbits ∧ nbits ≤ 32 then (decodeCode (BitVec.ofNat 8 w)).toOption
  else some (decodeKind (tableAccess nbits w))

end Sys2Proof
end

