-- ==== Sys2Proof/Machine/State.lean ====
section
/-! DEFINITION. The machine's state as plain data: the eight registers and two byte buffers of 10_state.md R20, the parameter
BUF_BYTES (00_scope.md R7), and the host's side of the bus (70_reset_and_hazards.md R244, R253), which is no state of the block
(assumption 1). And the reasons a command, an access or the machine can end with. -/

namespace Sys2Proof.Machine

/-- The eight registers (10_state.md R20). -/
inductive Reg where
  | cmd
  | status
  | arg
  | res
  | cfg
  | ilen
  | olen
  | frm
  deriving DecidableEq, Repr

/-- The command faults (60_exceptions.md R210). They do not stop the machine: FaultEntry (R211) is a next state. -/
inductive CmdFault where
  /-- E_ILLEGAL, raised by RunCommand for a reserved code. -/
  | illegal
  /-- E_BOUNDS, raised by RunCommand when ILEN.LEN > BUF_BYTES. -/
  | bounds
  /-- E_SHORT, raised by CKSUM and WITHCK. -/
  | short
  /-- E_LENGTH, raised by DEC14HL, DEC14LH, DEC21, NAMEENC32, NAMEDEC32, UNPACKB. -/
  | length
  /-- E_RANGE, raised by ENC14HL, ENC14LH, UNPACKB. -/
  | range
  /-- E_DATA8, the class-2 data reject, raised by DEC14HL, DEC14LH, DEC21, NAMEDEC32, UNPACKB. -/
  | data8
  /-- E_OVERFLOW, raised by WRAP and PACKB. -/
  | overflow
  deriving DecidableEq, Repr

/-- What the host does to the block (70_reset_and_hazards.md R253): a bus access (30_encoding.md R72), or a change of the reset
input (R240). -/
inductive HostEvent where
  | access (x : HostAccess)
  | assertReset
  | releaseReset
  deriving DecidableEq, Repr

/-- What the bus gives back to the host: a read's value (20_memory.md R53, R54) or an error response (60_exceptions.md R220). A
write that is no access error gives nothing back. -/
inductive Response where
  | word (v : Word)
  | byte (v : Byte)
  | readError
  | writeError
  deriving DecidableEq, Repr

/-- Why the machine stops. -/
inductive Fault where
  /-- Raised by `step` alone, when the host issues an access while reset is asserted (70_reset_and_hazards.md R240;
  93_implementation_defined.md section 5: stuck, the model has no step for it). Safe: nothing is proved of such a run. -/
  | accessDuringReset
  deriving DecidableEq, Repr

/-- Why an instruction has no meaning. -/
inductive Refusal where
  /-- Raised by an arm of `exec` for an instruction not modelled yet. Safe. No arm raises it: every instruction has its meaning. -/
  | notModelled (mnemonic : String)
  deriving DecidableEq, Repr

/-- A byte buffer: its bytes by index, in canonical form (`Memory.wf`). -/
abbrev Memory := List Host.Cell

/-- What a byte that is not listed reads as: the reset contents of both buffers (10_state.md R31, R32, R34). -/
def unlistedByte : Byte := 0x00#8

/-- The whole state. The first ten fields are the block's architectural state, and there is no other (10_state.md R20). -/
structure State where
  /-- CMD (10_state.md R23). -/
  cmd : Word
  /-- STATUS (10_state.md R24). -/
  status : Word
  /-- ARG (10_state.md R25). -/
  arg : Word
  /-- RES (10_state.md R26). -/
  res : Word
  /-- CFG (10_state.md R27). -/
  cfg : Word
  /-- ILEN (10_state.md R28). -/
  ilen : Word
  /-- OLEN (10_state.md R29). -/
  olen : Word
  /-- FRM (10_state.md R30). -/
  frm : Word
  /-- IBUF, by index (10_state.md R31). -/
  ibuf : Memory
  /-- OBUF, by index (10_state.md R32). -/
  obuf : Memory
  /-- BUF_BYTES (00_scope.md R7): fixed for a machine, no step changes it (assumption 3). -/
  bufBytes : BufSize
  /-- The host's coming events, the next first (70_reset_and_hazards.md R244; assumption 1). -/
  pending : List HostEvent
  /-- The level of the reset input (70_reset_and_hazards.md R240; assumption 7). -/
  resetLine : Bool
  /-- What the bus has given back to the host, oldest first (70_reset_and_hazards.md R244; assumption 8). -/
  returned : List Response
  deriving DecidableEq, Repr

/-- The machine right after reset (10_state.md R34, 70_reset_and_hazards.md R240), with the spec's default BUF_BYTES
(assumption 3), the reset input released and a host that has done nothing and plans nothing (assumptions 1, 2, 7). -/
def State.reset : State where
  cmd := 0#32
  status := 0#32
  arg := 0#32
  res := 0#32
  cfg := 0#32
  ilen := 0#32
  olen := 0#32
  frm := 0#32
  ibuf := []
  obuf := []
  bufBytes := defaultBufSize
  pending := []
  resetLine := false
  returned := []

end Sys2Proof.Machine
end

