-- ==== Sys2Proof/Machine/Flags.lean ====
section
/-! DEFINITION. The fields of STATUS (10_state.md R24), CFG.PKMODE (R27), the lengths (R28, R29) and FRM (R30), the codes and
classes of the command faults (60_exceptions.md R210), and FRAMEDEC's flags (41_envelope.md R120). -/

namespace Sys2Proof.Machine

/-- STATUS.DONE (10_state.md R24). -/
def statusDone (w : Word) : Bool := w.getLsbD 0

/-- STATUS.ERR (10_state.md R24). -/
def statusErr (w : Word) : Bool := w.getLsbD 1

/-- STATUS.FAULTSEEN (10_state.md R24). -/
def statusFaultSeen (w : Word) : Bool := w.getLsbD 2

/-- STATUS.ACCERR (10_state.md R24). -/
def statusAccErr (w : Word) : Bool := w.getLsbD 3

/-- STATUS.ECODE (10_state.md R24). -/
def statusEcode (w : Word) : Byte := w.extractLsb' 8 8

/-- The STATUS value with the given fields, its reserved bits 0 (10_state.md R24). -/
def packStatus (done err faultSeen accErr : Bool) (ecode : Byte) : Word :=
  0#16 ++ ecode ++ 0#4 ++ BitVec.ofBool accErr ++ BitVec.ofBool faultSeen ++ BitVec.ofBool err ++ BitVec.ofBool done

/-- The ECODE of each command fault (60_exceptions.md R210). -/
def faultCode : CmdFault → Byte
  | .illegal => 0x01#8
  | .bounds => 0x02#8
  | .short => 0x03#8
  | .length => 0x04#8
  | .range => 0x05#8
  | .data8 => 0x06#8
  | .overflow => 0x07#8

/-- Whether a command fault is of class 1, a contract fault; E_DATA8 alone is of class 2 (60_exceptions.md R210). -/
def faultClass1 : CmdFault → Bool
  | .illegal => true
  | .bounds => true
  | .short => true
  | .length => true
  | .range => true
  | .data8 => false
  | .overflow => true

/-- CFG.PKMODE, true for mode 1 (10_state.md R27). -/
def pkmode (s : State) : Bool := s.cfg.getLsbD 0

/-- ILEN.LEN (10_state.md R28). -/
def ilenLen (s : State) : Nat := (s.ilen.extractLsb' 0 16).toNat

/-- OLEN.LEN (10_state.md R29). -/
def olenLen (s : State) : Nat := (s.olen.extractLsb' 0 16).toNat

/-- FRM.MODEL (10_state.md R30). -/
def frmModel (w : Word) : Byte := w.extractLsb' 0 8

/-- FRM.OPCODE (10_state.md R30). -/
def frmOpcode (w : Word) : Byte := w.extractLsb' 8 8

/-- FRM.CKSTORED (10_state.md R30). -/
def frmCkStored (w : Word) : Byte := w.extractLsb' 16 8

/-- FRM.CKCALC (10_state.md R30). -/
def frmCkCalc (w : Word) : BitVec 7 := w.extractLsb' 24 7

/-- The FRM value with the given bytes: `model | opcode<<8 | stored<<16 | expected<<24` (41_envelope.md R120). -/
def packFrm (model opcode stored expected : Byte) : Word := expected ++ stored ++ opcode ++ model

/-- FRAMEDEC's flags for a sequence of 8 bytes or more: `1 | hdrok<<1 | termok<<2 | ckok<<3 | d7ok<<4 | frok<<5`, where FRAME_OK
is the conjunction of the others (41_envelope.md R120). -/
def packFrameFlags (hdrok termok ckok d7ok : Bool) : Word :=
  0#26 ++ BitVec.ofBool (hdrok && termok && ckok && d7ok) ++ BitVec.ofBool d7ok ++ BitVec.ofBool ckok ++
    BitVec.ofBool termok ++ BitVec.ofBool hdrok ++ 1#1

end Sys2Proof.Machine
end

