-- ==== Sys2Proof/Machine/Ops.lean ====
section
/-! DEFINITION. The named operations every meaning is written with: the buffers' bytes, the registers and the address map
(20_memory.md R52 to R54), completing a command (40_control.md R91), taking a command fault (60_exceptions.md R211), an access
error (60_exceptions.md R220), running a command's body (40_control.md R90) and the reset input (70_reset_and_hazards.md R240). -/

namespace Sys2Proof.Machine

/-- The byte at an index of a buffer. -/
def Memory.read : Memory → Nat → Byte
  | [], _ => unlistedByte
  | (k, v) :: m, a => if a = k then v else Memory.read m a

/-- Stores a byte at an index of a buffer, keeping the canonical form: the entries rise, and none holds `unlistedByte`. -/
def Memory.write : Memory → Nat → Byte → Memory
  | [], a, b => if b = unlistedByte then [] else [(a, b)]
  | (k, v) :: m, a, b =>
    if a < k then (if b = unlistedByte then (k, v) :: m else (a, b) :: (k, v) :: m)
    else if a = k then (if b = unlistedByte then m else (a, b) :: m)
    else (k, v) :: Memory.write m a b

/-- Stores a byte sequence from an index on, in index order (20_memory.md R56). -/
def Memory.writeBytes : Memory → Nat → List Byte → Memory
  | m, _, [] => m
  | m, a, b :: bs => Memory.writeBytes (Memory.write m a b) (a + 1) bs

/-- The `n` bytes from an index on, in index order. -/
def Memory.readBytes (m : Memory) (a n : Nat) : List Byte := (List.range n).map fun k => Memory.read m (a + k)

/-- The canonical form: indices strictly rising, and no entry equal to what an unlisted byte reads as. -/
abbrev Memory.wf (m : Memory) : Prop := m.Pairwise (fun c d => c.1 < d.1) ∧ ∀ c ∈ m, c.2 ≠ unlistedByte

/-- Every listed index is below `n`. -/
abbrev Memory.below (m : Memory) (n : Nat) : Prop := ∀ c ∈ m, c.1 < n

/-- The register at an offset that a word access may use: in the register window and a multiple of 4 (20_memory.md R52, R55). -/
def regAt (a : Offset) : Option Reg :=
  if a.toNat > 0x1F ∨ a.toNat % 4 ≠ 0 then none
  else
    match a.toNat / 4 with
    | 0 => some .cmd
    | 1 => some .status
    | 2 => some .arg
    | 3 => some .res
    | 4 => some .cfg
    | 5 => some .ilen
    | 6 => some .olen
    | 7 => some .frm
    | _ => none

/-- The IBUF index at an offset of the IBUF window (20_memory.md R52). -/
def ibufAt (n : BufSize) (a : Offset) : Option Nat :=
  if 0x1000 ≤ a.toNat ∧ a.toNat < 0x1000 + n.val then some (a.toNat - 0x1000) else none

/-- The OBUF index at an offset of the OBUF window (20_memory.md R52). -/
def obufAt (n : BufSize) (a : Offset) : Option Nat :=
  if 0x2000 ≤ a.toNat ∧ a.toNat < 0x2000 + n.val then some (a.toNat - 0x2000) else none

/-- The defined bits of each register; the others are reserved (10_state.md R23 to R30). -/
def definedBits : Reg → Word
  | .cmd => 0x000000FF#32
  | .status => 0x0000FF0F#32
  | .arg => 0xFFFFFFFF#32
  | .res => 0xFFFFFFFF#32
  | .cfg => 0x00000001#32
  | .ilen => 0x0000FFFF#32
  | .olen => 0x0000FFFF#32
  | .frm => 0x7FFFFFFF#32

/-- The stored value of a register. -/
def rawReg (r : Reg) (s : State) : Word :=
  match r with
  | .cmd => s.cmd
  | .status => s.status
  | .arg => s.arg
  | .res => s.res
  | .cfg => s.cfg
  | .ilen => s.ilen
  | .olen => s.olen
  | .frm => s.frm

/-- What the host reads: the register's value with reserved bits 0 (10_state.md R22, 20_memory.md R54). -/
def readReg (r : Reg) (s : State) : Word := rawReg r s &&& definedBits r

/-- What a host write stores: an RW register (CMD, ARG, CFG, ILEN) takes the written value in its defined fields; an RO register
(STATUS, RES, OLEN, FRM) ignores the write (10_state.md R22, 20_memory.md R54). -/
def writeReg (r : Reg) (v : Word) (s : State) : State :=
  match r with
  | .cmd => { s with cmd := v &&& definedBits .cmd }
  | .arg => { s with arg := v &&& definedBits .arg }
  | .cfg => { s with cfg := v &&& definedBits .cfg }
  | .ilen => { s with ilen := v &&& definedBits .ilen }
  | .status => s
  | .res => s
  | .olen => s
  | .frm => s

/-- The value OLEN or RES takes for a length (10_state.md R29). -/
def lengthWord (n : Nat) : Word := (BitVec.ofNat 16 n).setWidth 32

/-- FaultEntry (60_exceptions.md R211): DONE 0, ERR 1, ECODE the fault's code, FAULTSEEN 1 for a class-1 fault; nothing else
changes, and control stays with the host. -/
def faultEntry (f : CmdFault) (s : State) : State :=
  { s with
    status := packStatus false true (statusFaultSeen s.status || faultClass1 f) (statusAccErr s.status) (faultCode f) }

/-- Complete (40_control.md R91). No return-from-fault operation exists; a completing command is what clears DONE, ERR and ECODE
back to the no-fault state (60_exceptions.md R213). -/
def complete (s : State) : State :=
  { s with status := packStatus true false (statusFaultSeen s.status) (statusAccErr s.status) 0x00#8 }

/-- AccessErrorEntry (60_exceptions.md R220): STATUS.ACCERR becomes 1 and the host gets an error response; nothing else changes. -/
def accessErrorEntry (r : Response) (s : State) : State :=
  { s with status := s.status ||| 0x00000008#32, returned := s.returned ++ [r] }

/-- Gives a read's value back to the host; a read changes no state of the block (20_memory.md R59). -/
def giveBack (r : Response) (s : State) : State := { s with returned := s.returned ++ [r] }

/-- The writes a command makes (40_control.md R90): RES, FRM, and a byte sequence to OBUF from index 0 with its length to OLEN
(10_state.md R32). What is absent is left unchanged. -/
structure Writes where
  res : Option Word := none
  frm : Option Word := none
  out : Option (List Byte) := none
  deriving DecidableEq, Repr

/-- Performs a command's writes. OBUF bytes at the output's length and above are left unchanged (10_state.md R32). -/
def perform (w : Writes) (s : State) : State :=
  { s with
    res := w.res.getD s.res
    frm := w.frm.getD s.frm
    obuf := match w.out with
      | none => s.obuf
      | some out => Memory.writeBytes s.obuf 0 out
    olen := match w.out with
      | none => s.olen
      | some out => lengthWord out.length }

/-- What is left of a command once its body has been checked and computed (40_control.md R90). -/
def finish (r : Except CmdFault Writes) (s : State) : State :=
  match r with
  | .error f => faultEntry f s
  | .ok w => complete (perform w s)

/-- Stores a command code in CMD.CODE (10_state.md R23). -/
def storeCode (code : Byte) (s : State) : State := { s with cmd := code.setWidth 32 }

/-- RunCommand for a command that reads IBUF (40_control.md R90): the code is stored, ILEN.LEN is checked against BUF_BYTES, and
the body's writes happen only when all its checks have passed. -/
def runReading (code : Byte) (body : State → Except CmdFault Writes) (s : State) : State :=
  let s1 := storeCode code s
  if ilenLen s1 > s1.bufBytes.val then faultEntry .bounds s1 else finish (body s1) s1

/-- RunCommand for NOP, ENC14HL and ENC14LH, which do not read ILEN and never raise E_BOUNDS (40_control.md R90). -/
def runScalar (code : Byte) (body : State → Except CmdFault Writes) (s : State) : State :=
  let s1 := storeCode code s
  finish (body s1) s1

/-- RunCommand for a reserved code: the code is stored, then E_ILLEGAL (30_encoding.md R74). -/
def runReserved (code : Byte) (s : State) : State := faultEntry .illegal (storeCode code s)

/-- Asserting the reset input: every piece of the block's state takes its reset value (70_reset_and_hazards.md R240; 10_state.md
R34). BUF_BYTES is the machine's, and what the host has been given and still plans is the host's: reset does not touch them. -/
def assertReset (s : State) : State :=
  { s with
    cmd := 0#32, status := 0#32, arg := 0#32, res := 0#32, cfg := 0#32, ilen := 0#32, olen := 0#32, frm := 0#32
    ibuf := [], obuf := [], resetLine := true }

/-- Releasing the reset input: the next host access is served at once (70_reset_and_hazards.md R242). -/
def releaseReset (s : State) : State := { s with resetLine := false }

end Sys2Proof.Machine
end

