-- ==== Sys2Proof/Machine/Operands.lean ====
section
/-! DEFINITION. A command's operands (30_encoding.md R71), the two forms: the byte sequence `IBUF[0..ILEN.LEN)` and the scalar
`ARG.VALUE`, a 32-bit unsigned number neither extended nor scaled. -/

namespace Sys2Proof.Machine

/-- The byte-sequence operand `IBUF[0..ILEN.LEN)` (30_encoding.md R71). -/
def inputBytes (s : State) : List Byte := Memory.readBytes s.ibuf 0 (ilenLen s)

/-- The byte `IBUF[k]` (00_scope.md R11). -/
def inputByte (s : State) (k : Nat) : Byte := Memory.read s.ibuf k

/-- The scalar operand `ARG.VALUE`, read as an unsigned number (30_encoding.md R71). -/
def argValue (s : State) : Nat := s.arg.toNat

/-- A byte is 7-bit-safe when its bit 7 is 0 (00_scope.md R8). -/
def isSafe7 (b : Byte) : Bool := decide (b.toNat ≤ 0x7F)

/-- `zext_32` of a byte (00_scope.md R8). -/
def zext32 (b : Byte) : Word := b.setWidth 32

end Sys2Proof.Machine
end

