-- ==== Sys2Proof/Machine/Control.lean ====
section
/-! DEFINITION. NOP, the one command that is no source function (40_control.md R92). -/

namespace Sys2Proof.Machine

/-- Exec_NOP: no operands, no checks, no writes (40_control.md R92). -/
def nopBody (_ : State) : Except CmdFault Writes := .ok {}

/-- NOP (40_control.md R92): STATUS only, through Complete. It does not read ILEN, so it never raises E_BOUNDS. -/
def execNop (s : State) : Host.Outcome State Fault Refusal := .next (runScalar 0x00#8 nopBody s)

end Sys2Proof.Machine
end

