-- ==== Sys2Proof/Machine/Envelope.lean ====
section
/-! DEFINITION. The envelope family (41_envelope.md): CKSUM, WITHCK, WRAP and FRAMEDEC. -/

namespace Sys2Proof.Machine

/-- The frame header `HDR` (41_envelope.md R100). -/
def frameHeader : List Byte := [0xF0#8, 0x00#8, 0x01#8, 0x74#8]

/-- The terminator (41_envelope.md R101). -/
def terminator : Byte := 0xF7#8

/-- `xorfold(s)` (00_scope.md R10). -/
def xorFold : List Byte → Byte
  | [] => 0x00#8
  | b :: bs => b ^^^ xorFold bs

/-- `checksum(f) = xorfold(f[0..N-1)) & 0x7F`: every byte but the last, bits 6 to 0 (41_envelope.md R102). -/
def checksum (f : List Byte) : Byte := xorFold f.dropLast &&& 0x7F#8

/-- Exec_CKSUM (41_envelope.md R105). -/
def cksumBody (s : State) : Except CmdFault Writes :=
  if ilenLen s < 2 then .error .short
  else .ok { res := some (zext32 (checksum (inputBytes s))) }

/-- CKSUM (41_envelope.md R105). -/
def execCksum (s : State) : Host.Outcome State Fault Refusal := .next (runReading 0x01#8 cksumBody s)

/-- The bytes WITHCK makes of a sequence of 2 bytes or more: the slot, its second-to-last byte, holds the checksum, and the last
byte is copied (41_envelope.md R108). -/
def withChecksum (f : List Byte) : List Byte :=
  f.take (f.length - 2) ++ [checksum f] ++ f.drop (f.length - 1)

/-- Exec_WITHCK (41_envelope.md R108): the old slot takes part in the XOR. -/
def withckBody (s : State) : Except CmdFault Writes :=
  if ilenLen s < 2 then .error .short
  else .ok { out := some (withChecksum (inputBytes s)), res := some (zext32 (checksum (inputBytes s))) }

/-- WITHCK (41_envelope.md R108). -/
def execWithck (s : State) : Host.Outcome State Fault Refusal := .next (runReading 0x02#8 withckBody s)

/-- The checksum of a body in its frame, the placeholder 0x00 in the slot (41_envelope.md R111). -/
def wrapChecksum (b : List Byte) : Byte := checksum (frameHeader ++ b ++ [0x00#8, terminator])

/-- The frame WRAP makes of a body (41_envelope.md R111). -/
def wrapFrame (b : List Byte) : List Byte := frameHeader ++ b ++ [wrapChecksum b, terminator]

/-- Exec_WRAP (41_envelope.md R111). -/
def wrapBody (s : State) : Except CmdFault Writes :=
  if ilenLen s + 6 > s.bufBytes.val then .error .overflow
  else .ok { out := some (wrapFrame (inputBytes s)), res := some (zext32 (wrapChecksum (inputBytes s))) }

/-- WRAP (41_envelope.md R111). -/
def execWrap (s : State) : Host.Outcome State Fault Refusal := .next (runReading 0x03#8 wrapBody s)

/-- The checksum a sequence should carry: over every byte before the slot, `xorfold(f[0..N-2)) & 0x7F` (41_envelope.md R102, R120). -/
def expectedChecksum (f : List Byte) : Byte := xorFold (f.take (f.length - 2)) &&& 0x7F#8

/-- FRAMEDEC's flags for a sequence of 8 bytes or more (41_envelope.md R120). -/
def frameFlags (f : List Byte) : Word :=
  packFrameFlags
    (f.take 4 == frameHeader)
    (f.getD (f.length - 1) 0x00#8 == terminator)
    (f.getD (f.length - 2) 0x00#8 == expectedChecksum f)
    (((f.take (f.length - 1)).drop 4).all isSafe7)

/-- FRAMEDEC's fields for a sequence of 8 bytes or more (41_envelope.md R120). -/
def frameFields (f : List Byte) : Word :=
  packFrm (f.getD 4 0x00#8) (f.getD 5 0x00#8) (f.getD (f.length - 2) 0x00#8) (expectedChecksum f)

/-- The payload, indices 6 to N-3 (41_envelope.md R101, R120). -/
def framePayload (f : List Byte) : List Byte := (f.take (f.length - 2)).drop 6

/-- Exec_FRAMEDEC (41_envelope.md R120): it never rejects a frame. -/
def framedecBody (s : State) : Except CmdFault Writes :=
  if ilenLen s < 8 then .ok { res := some 0#32, frm := some 0#32, out := some [] }
  else .ok { res := some (frameFlags (inputBytes s)), frm := some (frameFields (inputBytes s)),
             out := some (framePayload (inputBytes s)) }

/-- FRAMEDEC (41_envelope.md R120). -/
def execFramedec (s : State) : Host.Outcome State Fault Refusal := .next (runReading 0x04#8 framedecBody s)

end Sys2Proof.Machine
end

