-- ==== Sys2Proof/Machine/Int7.lean ====
section
/-! DEFINITION. The 7-bit-safe integer family (42_int7.md): ENC14HL, ENC14LH, DEC14HL, DEC14LH and DEC21. -/

namespace Sys2Proof.Machine

/-- `v[6:0]` as a byte (42_int7.md R140). -/
def low7 (v : Word) : Byte := (v.extractLsb' 0 7).setWidth 8

/-- `v[13:7]` as a byte (42_int7.md R140). -/
def high7 (v : Word) : Byte := (v.extractLsb' 7 7).setWidth 8

/-- The 14-bit number with the given high and low 7-bit-safe bytes (42_int7.md R140). -/
def join14 (hi lo : Byte) : Word := (hi.setWidth 32 <<< 7) ||| lo.setWidth 32

/-- The 21-bit number with the given low, mid and high 7-bit-safe bytes (42_int7.md R150). -/
def join21 (lo mid hi : Byte) : Word := lo.setWidth 32 ||| (mid.setWidth 32 <<< 7) ||| (hi.setWidth 32 <<< 14)

/-- Exec_ENC14HL (42_int7.md R142). -/
def enc14hlBody (s : State) : Except CmdFault Writes :=
  if argValue s > 16383 then .error .range
  else .ok { out := some [high7 s.arg, low7 s.arg], res := some s.arg }

/-- ENC14HL (42_int7.md R142). It does not read ILEN, so it never raises E_BOUNDS. -/
def execEnc14hl (s : State) : Host.Outcome State Fault Refusal := .next (runScalar 0x10#8 enc14hlBody s)

/-- Exec_ENC14LH (42_int7.md R143). -/
def enc14lhBody (s : State) : Except CmdFault Writes :=
  if argValue s > 16383 then .error .range
  else .ok { out := some [low7 s.arg, high7 s.arg], res := some s.arg }

/-- ENC14LH (42_int7.md R143). It does not read ILEN, so it never raises E_BOUNDS. -/
def execEnc14lh (s : State) : Host.Outcome State Fault Refusal := .next (runScalar 0x11#8 enc14lhBody s)

/-- Exec_DEC14HL (42_int7.md R145). -/
def dec14hlBody (s : State) : Except CmdFault Writes :=
  if ilenLen s ≠ 2 then .error .length
  else if !(isSafe7 (inputByte s 0) && isSafe7 (inputByte s 1)) then .error .data8
  else .ok { res := some (join14 (inputByte s 0) (inputByte s 1)) }

/-- DEC14HL (42_int7.md R145). -/
def execDec14hl (s : State) : Host.Outcome State Fault Refusal := .next (runReading 0x12#8 dec14hlBody s)

/-- Exec_DEC14LH (42_int7.md R146). -/
def dec14lhBody (s : State) : Except CmdFault Writes :=
  if ilenLen s ≠ 2 then .error .length
  else if !(isSafe7 (inputByte s 0) && isSafe7 (inputByte s 1)) then .error .data8
  else .ok { res := some (join14 (inputByte s 1) (inputByte s 0)) }

/-- DEC14LH (42_int7.md R146). -/
def execDec14lh (s : State) : Host.Outcome State Fault Refusal := .next (runReading 0x13#8 dec14lhBody s)

/-- Exec_DEC21 (42_int7.md R151). -/
def dec21Body (s : State) : Except CmdFault Writes :=
  if ilenLen s ≠ 3 then .error .length
  else if !(isSafe7 (inputByte s 0) && isSafe7 (inputByte s 1) && isSafe7 (inputByte s 2)) then .error .data8
  else .ok { res := some (join21 (inputByte s 0) (inputByte s 1) (inputByte s 2)) }

/-- DEC21 (42_int7.md R151). -/
def execDec21 (s : State) : Host.Outcome State Fault Refusal := .next (runReading 0x14#8 dec21Body s)

end Sys2Proof.Machine
end

