-- ==== Sys2Proof/Machine/Names.lean ====
section
/-! DEFINITION. The preset-name family (43_names.md): NAMEENC32, NAMEDEC32, PACKB and UNPACKB. -/

namespace Sys2Proof.Machine

/-- The codes NAMEENC32 keeps: every non-ASCII byte is dropped first (43_names.md R171). -/
def keptCodes (t : List Byte) : List Byte := t.filter isSafe7

/-- The codes padded with spaces to 32 (43_names.md R170, R171). -/
def padName (kept : List Byte) : List Byte := kept ++ List.replicate (32 - kept.length) 0x20#8

/-- Exec_NAMEENC32 (43_names.md R171). -/
def nameenc32Body (s : State) : Except CmdFault Writes :=
  if (keptCodes (inputBytes s)).length > 32 then .error .length
  else .ok { out := some (padName (keptCodes (inputBytes s))),
             res := some (lengthWord (keptCodes (inputBytes s)).length) }

/-- NAMEENC32 (43_names.md R171). -/
def execNameenc32 (s : State) : Host.Outcome State Fault Refusal := .next (runReading 0x20#8 nameenc32Body s)

/-- The whitespace set `WS` (43_names.md R174): tab, line feed, vertical tab, form feed, carriage return, space. -/
def isSpace (b : Byte) : Bool := [0x09#8, 0x0A#8, 0x0B#8, 0x0C#8, 0x0D#8, 0x20#8].contains b

/-- A sequence without its trailing whitespace (43_names.md R173). -/
def trimTrailing (t : List Byte) : List Byte := (t.reverse.dropWhile isSpace).reverse

/-- The name in a 32-byte window: zero bytes dropped first, then trailing whitespace trimmed (43_names.md R173). -/
def windowName (w : List Byte) : List Byte := trimTrailing (w.filter fun b => b != 0x00#8)

/-- Exec_NAMEDEC32 (43_names.md R173). -/
def namedec32Body (s : State) : Except CmdFault Writes :=
  if ilenLen s ≠ 32 then .error .length
  else if !(inputBytes s).all isSafe7 then .error .data8
  else .ok { out := some (windowName (inputBytes s)),
             res := some (lengthWord (windowName (inputBytes s)).length) }

/-- NAMEDEC32 (43_names.md R173). -/
def execNamedec32 (s : State) : Host.Outcome State Fault Refusal := .next (runReading 0x21#8 namedec32Body s)

/-- `PackedLength(n, m)` (43_names.md R182). -/
def packedLength (n : Nat) (m : Bool) : Nat :=
  if m then (if n = 0 then 1 else n + 1 + (n - 1) / 7) else n + 1

/-- The shift of code `i`, `(i mod 7) + 1` (43_names.md R180). -/
def packShift (i : Nat) : Nat := i % 7 + 1

/-- The first of the two bytes code `i` occupies, `h(i)` (43_names.md R182). -/
def packIndex (i : Nat) (m : Bool) : Nat := if m then i + i / 7 else i

/-- The packer's output from the current last byte on, for the codes from index `i` on (43_names.md R183). In mode 1 a fresh
0x00 becomes the last byte before each code whose index `i > 0` is a multiple of 7 (R181); each code's high bits are ORed into the
last byte, and a new last byte takes its low bits (R180). -/
def packFrom (m : Bool) : Nat → Byte → List Byte → List Byte
  | _, last, [] => [last]
  | i, last, c :: cs =>
    let next := (c <<< (7 - packShift i)) &&& 0x7F#8
    if m && decide (i > 0) && i % 7 == 0 then
      last :: (0x00#8 ||| (c >>> packShift i)) :: packFrom m (i + 1) next cs
    else (last ||| (c >>> packShift i)) :: packFrom m (i + 1) next cs

/-- The packed bytes of a name: the output starts as the one byte 0x00 (43_names.md R180, R183). -/
def packName (m : Bool) (codes : List Byte) : List Byte := packFrom m 0 0x00#8 codes

/-- Exec_PACKB (43_names.md R183). -/
def packbBody (s : State) : Except CmdFault Writes :=
  if packedLength (ilenLen s) (pkmode s) > s.bufBytes.val then .error .overflow
  else .ok { out := some (packName (pkmode s) (inputBytes s)),
             res := some (lengthWord (packName (pkmode s) (inputBytes s)).length) }

/-- PACKB (43_names.md R183). -/
def execPackb (s : State) : Host.Outcome State Fault Refusal := .next (runReading 0x22#8 packbBody s)

/-- Code `i` of packed bytes: `((B[h] << s) & 0xFF) | (B[h+1] >> (7 - s))` (43_names.md R190). -/
def unpackCode (m : Bool) (bytes : List Byte) (i : Nat) : Byte :=
  (bytes.getD (packIndex i m) 0x00#8 <<< packShift i) ||| (bytes.getD (packIndex i m + 1) 0x00#8 >>> (7 - packShift i))

/-- The `n` codes of packed bytes (43_names.md R190). -/
def unpackName (m : Bool) (n : Nat) (bytes : List Byte) : List Byte := (List.range n).map (unpackCode m bytes)

/-- Exec_UNPACKB (43_names.md R190). -/
def unpackbBody (s : State) : Except CmdFault Writes :=
  if argValue s > s.bufBytes.val then .error .range
  else if ilenLen s ≠ packedLength (argValue s) (pkmode s) then .error .length
  else if !(inputBytes s).all isSafe7 then .error .data8
  else .ok { out := some (unpackName (pkmode s) (argValue s) (inputBytes s)), res := some (lengthWord (argValue s)) }

/-- UNPACKB (43_names.md R190). -/
def execUnpackb (s : State) : Host.Outcome State Fault Refusal := .next (runReading 0x23#8 unpackbBody s)

end Sys2Proof.Machine
end

