-- ==== Sys2Proof/Machine/Access.lean ====
section
/-! DEFINITION. The four kinds of host access (20_memory.md R51 to R55). Every access is checked for an access error first
(60_exceptions.md R221); only an accepted WW32 to CMD runs a command. -/

namespace Sys2Proof.Machine

/-- RunCommand (40_control.md R90): the code selects its command (30_encoding.md R73), or is reserved (R74). -/
def runCommand (code : Byte) (s : State) : Host.Outcome State Fault Refusal :=
  match decodeCode code with
  | .error _ => .next (runReserved code s)
  | .ok .nop => execNop s
  | .ok .cksum => execCksum s
  | .ok .withck => execWithck s
  | .ok .wrap => execWrap s
  | .ok .framedec => execFramedec s
  | .ok .enc14hl => execEnc14hl s
  | .ok .enc14lh => execEnc14lh s
  | .ok .dec14hl => execDec14hl s
  | .ok .dec14lh => execDec14lh s
  | .ok .dec21 => execDec21 s
  | .ok .nameenc32 => execNameenc32 s
  | .ok .namedec32 => execNamedec32 s
  | .ok .packb => execPackb s
  | .ok .unpackb => execUnpackb s
  -- no code selects a host access (30_encoding.md R73)
  | .ok (.rd _) => .next (runReserved code s)
  | .ok (.wr _ _) => .next (runReserved code s)
  | .ok (.rdb _) => .next (runReserved code s)
  | .ok (.wrb _ _) => .next (runReserved code s)

/-- RD, the access RW32 (20_memory.md R54, R55): the register's value, reserved bits 0. -/
def execRd (a : Offset) (s : State) : Host.Outcome State Fault Refusal :=
  match regAt a with
  | none => .next (accessErrorEntry .readError s)
  | some r => .next (giveBack (.word (readReg r s)) s)

/-- WR, the access WW32 (20_memory.md R54, R55): stores an RW register's fields, ignores an RO register, and at CMD runs the
command `data[7:0]` names, whose first effect is to store the code (40_control.md R90). -/
def execWr (a : Offset) (v : Word) (s : State) : Host.Outcome State Fault Refusal :=
  match regAt a with
  | none => .next (accessErrorEntry .writeError s)
  | some r => if r = .cmd then runCommand (v.setWidth 8) (writeReg .cmd v s) else .next (writeReg r v s)

/-- RDB, the access RB8 (20_memory.md R53, R55): the byte of IBUF or OBUF. -/
def execRdb (a : Offset) (s : State) : Host.Outcome State Fault Refusal :=
  match ibufAt s.bufBytes a with
  | some k => .next (giveBack (.byte (Memory.read s.ibuf k)) s)
  | none =>
    match obufAt s.bufBytes a with
    | some k => .next (giveBack (.byte (Memory.read s.obuf k)) s)
    | none => .next (accessErrorEntry .readError s)

/-- WRB, the access WB8 (20_memory.md R53, R55): stores the IBUF byte; at an OBUF offset it completes and changes nothing. -/
def execWrb (a : Offset) (v : Byte) (s : State) : Host.Outcome State Fault Refusal :=
  match ibufAt s.bufBytes a with
  | some k => .next { s with ibuf := Memory.write s.ibuf k v }
  | none =>
    match obufAt s.bufBytes a with
    | some _ => .next s
    | none => .next (accessErrorEntry .writeError s)

end Sys2Proof.Machine
end

