-- ==== Sys2Proof/Machine/Dispatch.lean ====
section
/-! DEFINITION. What each instruction does: one meaning per constructor. -/

namespace Sys2Proof.Machine

def exec (i : Instr) (s : State) : Host.Outcome State Fault Refusal :=
  match i with
  | .nop => Sys2Proof.Machine.execNop s
  | .cksum => Sys2Proof.Machine.execCksum s
  | .withck => Sys2Proof.Machine.execWithck s
  | .wrap => Sys2Proof.Machine.execWrap s
  | .framedec => Sys2Proof.Machine.execFramedec s
  | .enc14hl => Sys2Proof.Machine.execEnc14hl s
  | .enc14lh => Sys2Proof.Machine.execEnc14lh s
  | .dec14hl => Sys2Proof.Machine.execDec14hl s
  | .dec14lh => Sys2Proof.Machine.execDec14lh s
  | .dec21 => Sys2Proof.Machine.execDec21 s
  | .nameenc32 => Sys2Proof.Machine.execNameenc32 s
  | .namedec32 => Sys2Proof.Machine.execNamedec32 s
  | .packb => Sys2Proof.Machine.execPackb s
  | .unpackb => Sys2Proof.Machine.execUnpackb s
  | .rd offset => Sys2Proof.Machine.execRd offset s
  | .wr offset data => Sys2Proof.Machine.execWr offset data s
  | .rdb offset => Sys2Proof.Machine.execRdb offset s
  | .wrb offset data => Sys2Proof.Machine.execWrb offset data s

end Sys2Proof.Machine
end

