-- ==== Sys2Proof/Machine/Fetch.lean ====
section
/-! DEFINITION. How a host event reaches the block (70_reset_and_hazards.md R240, R244, R253). The block fetches no instructions
(10_state.md R21): the host's next event is the head of `pending`, and taking it off the list is all that fetching does
(assumptions 1, 2). -/

namespace Sys2Proof.Machine

/-- The state once the host's next event has been taken off the list. -/
def takeEvent (s : State) : State := { s with pending := s.pending.tail }

/-- Places an access as the host's next event, with the reset input released so that it is served. -/
def placeAccess (x : HostAccess) (s : State) : State :=
  { s with pending := .access x :: s.pending, resetLine := false }

end Sys2Proof.Machine
end

