-- ==== Sys2Proof/Machine/Step.lean ====
section
/-! DEFINITION. One step: the host's next event takes effect in full (20_memory.md R58, R60; 70_reset_and_hazards.md R250). -/

namespace Sys2Proof.Machine

/-- One step. With no event pending nothing happens and all state is kept (60_exceptions.md R235; assumption 2). An access is
decoded and executed; an access while reset is asserted stops the machine (93_implementation_defined.md section 5; assumption 6). A
change of the reset input is one atomic event (70_reset_and_hazards.md R240). -/
def step (s : State) : Host.Outcome State Fault Refusal :=
  match s.pending with
  | [] => .next s
  | .access x :: _ =>
    if s.resetLine then .fault .accessDuringReset else exec (decodeAccess x) (takeEvent s)
  | .assertReset :: _ => .next (assertReset (takeEvent s))
  | .releaseReset :: _ => .next (releaseReset (takeEvent s))

/-- The state whose next step runs the instruction of a table word (assumption 4). -/
def State.withFetchWord (s : State) (nbits w : Nat) : State := placeAccess (tableAccess nbits w) s

end Sys2Proof.Machine
end

