-- ==== Sys2Proof/Machine/HostProgram.lean ====
section
/-! DEFINITION. A host program over the block: a finite list of host accesses (70_reset_and_hazards.md R244), written with the
access lines and the pseudo-instructions of 30_encoding.md R77 and R78. -/

namespace Sys2Proof.Machine

/-- The offset a register's name stands for (20_memory.md R52, 30_encoding.md R77). -/
def regOffset : Reg → Offset
  | .cmd => 0x0000#16
  | .status => 0x0004#16
  | .arg => 0x0008#16
  | .res => 0x000C#16
  | .cfg => 0x0010#16
  | .ilen => 0x0014#16
  | .olen => 0x0018#16
  | .frm => 0x001C#16

/-- The offset of IBUF byte `k` (30_encoding.md R77). -/
def ibufOffset (k : Nat) : Offset := BitVec.ofNat 16 (0x1000 + k)

/-- The offset of OBUF byte `k` (30_encoding.md R77). -/
def obufOffset (k : Nat) : Offset := BitVec.ofNat 16 (0x2000 + k)

/-- `CMD <mnemonic>` (30_encoding.md R78): a WR to CMD of the command's code. -/
def pseudoCmd (i : Instr) : List HostAccess := ((commandCode i).map cmdWrite).toList

/-- `LOAD b0, ..., b(n-1)` (30_encoding.md R78): the bytes to IBUF from index 0, then their number to ILEN. -/
def pseudoLoad (bytes : List Byte) : List HostAccess :=
  (bytes.mapIdx fun k b => encode (.wrb (ibufOffset k) b)) ++
    [encode (.wr (regOffset .ilen) (BitVec.ofNat 32 bytes.length))]

/-- `LOADS "text"` (30_encoding.md R78): LOAD of the ASCII codes of the characters. -/
def pseudoLoads (text : List Char) : List HostAccess := pseudoLoad (text.map fun c => BitVec.ofNat 8 c.toNat)

/-- `RDOUT` (30_encoding.md R78) when OLEN.LEN is `n`: the host learns `n` from the first of these reads (assumption 16). -/
def pseudoRdout (n : Nat) : List HostAccess :=
  encode (.rd (regOffset .olen)) :: (List.range n).map fun k => encode (.rdb (obufOffset k))

/-- `CHECK` (30_encoding.md R78): a RD of STATUS. -/
def pseudoCheck : List HostAccess := [encode (.rd (regOffset .status))]

/-- A machine whose host is about to run a program (70_reset_and_hazards.md R244; assumption 2). -/
def loadProgram (program : List HostAccess) (s : State) : State := { s with pending := program.map .access }

end Sys2Proof.Machine
end

