-- ==== Sys2Proof/WellFormed.lean ====
section
/-! DEFINITION. Which instructions are well formed. Every field of `Instr` has exactly the width the spec gives it, so the one
check is that each host access has one spelling: a word write to CMD whose low byte is a code of the command map is that
command (30_encoding.md R70, R73), not a WR (assumption 5). -/

namespace Sys2Proof

/-- The check that `.wr offset data` is not another spelling of a command. -/
def notACommandWrite (offset : Offset) (data : Word) : Bool :=
  !(offset == cmdOffset && commandTable.any (fun row => row.1 == data.setWidth 8))

/-- Well-formed instructions. -/
def WellFormed : Instr → Bool
  | .wr offset data => notACommandWrite offset data
  | .nop => true
  | .cksum => true
  | .withck => true
  | .wrap => true
  | .framedec => true
  | .enc14hl => true
  | .enc14lh => true
  | .dec14hl => true
  | .dec14lh => true
  | .dec21 => true
  | .nameenc32 => true
  | .namedec32 => true
  | .packb => true
  | .unpackb => true
  | .rd _ => true
  | .rdb _ => true
  | .wrb _ _ => true

end Sys2Proof
end

