-- ==== Sys2Proof/Safety.lean ====
section
/-! DEFINITION. The terms claims are stated in: what a faulted run is, what a completed and a faulting command leave, and the
invariant of the block's state. -/

namespace Sys2Proof.Spec

/-- `PackedLength(n, m)` as 43_names.md R182 writes it: `n + 1` in mode 0; in mode 1, 1 for no codes and `n + 1 + (n-1) div 7`
otherwise. Claims are stated with it, not with the length the packer's meaning checks. -/
def packedSize (n : Nat) (m : Bool) : Nat :=
  if m = false then n + 1 else if n = 0 then 1 else n + 1 + (n - 1) / 7

end Sys2Proof.Spec

namespace Sys2Proof.Machine

/-! ## Runs -/

/-- A run faulted when, at its end, FAULTSEEN or ACCERR is 1 (70_reset_and_hazards.md R244). -/
def runFaulted (s : State) : Bool := statusFaultSeen s.status || statusAccErr s.status

/-- The list of values the host's reads returned (70_reset_and_hazards.md R244): one entry for each read, an error response where
the read was an access error. -/
def readResults (s : State) : List Response := s.returned.filter fun r => r != .writeError

/-- The bytes the host hands to the outbound transport, in index order (20_memory.md R65). -/
def outgoingBytes (s : State) : List Byte := Memory.readBytes s.obuf 0 (olenLen s)

/-- The host has set CFG.PKMODE to the mode the device expects (70_reset_and_hazards.md R243). -/
def packModeReady (s : State) : Prop := pkmode s = Config.devicePkmode

/-- The platform's address of an offset (00_scope.md R7). -/
def hostAddress (a : Offset) : Nat := Config.base + a.toNat

/-- The command that encodes a 14-bit number in an order (42_int7.md R140). -/
def encodeCommand : ByteOrder → Instr
  | .hl => .enc14hl
  | .lh => .enc14lh

/-- The command that decodes a 14-bit number in an order (42_int7.md R140). -/
def decodeCommand : ByteOrder → Instr
  | .hl => .dec14hl
  | .lh => .dec14lh

/-! ## What a command leaves -/

/-- What no command writes (20_memory.md R59, 10_state.md R31), and the host's side of the bus. -/
def KeepsOperands (s t : State) : Prop :=
  t.arg = s.arg ∧ t.cfg = s.cfg ∧ t.ilen = s.ilen ∧ t.ibuf = s.ibuf ∧ t.bufBytes = s.bufBytes ∧
    t.pending = s.pending ∧ t.resetLine = s.resetLine ∧ t.returned = s.returned

/-- The outputs are as before: RES, FRM, OLEN and every byte of OBUF. -/
def KeepsOutputs (s t : State) : Prop :=
  t.res = s.res ∧ t.frm = s.frm ∧ t.olen = s.olen ∧ t.obuf = s.obuf

/-- The command of this code completed (40_control.md R90, R91): CODE is stored, DONE 1, ERR 0, ECODE 0x00, the sticky bits keep
their values, the reserved bits are 0, and no operand is written. -/
def Completes (code : Byte) (s t : State) : Prop :=
  t.cmd = code.setWidth 32 ∧
    statusDone t.status = true ∧ statusErr t.status = false ∧ statusEcode t.status = 0x00#8 ∧
    statusFaultSeen t.status = statusFaultSeen s.status ∧ statusAccErr t.status = statusAccErr s.status ∧
    readReg .status t = t.status ∧ KeepsOperands s t

/-- The command of this code ended with a fault (40_control.md R90, 60_exceptions.md R211): CODE is stored, DONE 0, ERR 1, ECODE
the fault's code, FAULTSEEN set by a class-1 fault, and nothing else changes. -/
def FaultsWith (code : Byte) (f : CmdFault) (s t : State) : Prop :=
  t.cmd = code.setWidth 32 ∧
    statusDone t.status = false ∧ statusErr t.status = true ∧ statusEcode t.status = faultCode f ∧
    statusFaultSeen t.status = (statusFaultSeen s.status || faultClass1 f) ∧
    statusAccErr t.status = statusAccErr s.status ∧
    readReg .status t = t.status ∧ KeepsOperands s t ∧ KeepsOutputs s t

/-- The command wrote the byte sequence `out` (10_state.md R32): OBUF from index 0, its length to OLEN, and no other OBUF byte. -/
def WritesOut (out : List Byte) (s t : State) : Prop :=
  t.olen = BitVec.ofNat 32 out.length ∧
    ∀ k, Memory.read t.obuf k = if k < out.length then out.getD k 0x00#8 else Memory.read s.obuf k

/-- The access ended in an access error with this response (60_exceptions.md R220): STATUS.ACCERR is 1, every other bit of STATUS
is as before, the host got the response, and nothing else changed. -/
def EndsInAccessError (r : Response) (s t : State) : Prop :=
  statusAccErr t.status = true ∧ (∀ j, j ≠ 3 → t.status.getLsbD j = s.status.getLsbD j) ∧
    t = { s with status := t.status, returned := s.returned ++ [r] }

/-- The offset lies in neither buffer window (20_memory.md R52). -/
def OutsideBuffers (a : Offset) (s : State) : Prop :=
  ¬ (0x1000 ≤ a.toNat ∧ a.toNat < 0x1000 + s.bufBytes.val) ∧ ¬ (0x2000 ≤ a.toNat ∧ a.toNat < 0x2000 + s.bufBytes.val)

/-- The host access is an access error (20_memory.md R55): a word access outside the register window or at an offset that is not a
multiple of 4, or a byte access outside both buffer windows. A command is the accepted access that starts it. -/
def AccessIsError (i : Instr) (s : State) : Prop :=
  match i with
  | .rd a => a.toNat > 0x001F ∨ a.toNat % 4 ≠ 0
  | .wr a _ => a.toNat > 0x001F ∨ a.toNat % 4 ≠ 0
  | .rdb a => OutsideBuffers a s
  | .wrb a _ => OutsideBuffers a s
  | .nop => False
  | .cksum => False
  | .withck => False
  | .wrap => False
  | .framedec => False
  | .enc14hl => False
  | .enc14lh => False
  | .dec14hl => False
  | .dec14lh => False
  | .dec21 => False
  | .nameenc32 => False
  | .namedec32 => False
  | .packb => False
  | .unpackb => False

/-- The input sequence of a state, byte by byte: `IBUF[0..ILEN.LEN)` is `f` (30_encoding.md R71). -/
def InputIs (f : List Byte) (s : State) : Prop :=
  ilenLen s = f.length ∧ f.length ≤ s.bufBytes.val ∧ ∀ k, k < f.length → Memory.read s.ibuf k = f.getD k 0x00#8

/-- The host has copied one state's output to another's input (70_reset_and_hazards.md R251, item 4): `OBUF[0..OLEN)` of `t` is
`IBUF[0..ILEN)` of `u`, and the two are states of one machine. -/
def FeedsTo (t u : State) : Prop :=
  u.bufBytes = t.bufBytes ∧ ilenLen u = olenLen t ∧
    ∀ k, k < olenLen t → Memory.read u.ibuf k = Memory.read t.obuf k

/-! ## Which fault a command reports -/

/-- The priority of the command faults, the first first (60_exceptions.md R212). -/
def faultPriority : List CmdFault := [.illegal, .bounds, .short, .range, .length, .data8, .overflow]

/-- Some byte of the input has bit 7 set. -/
def inputHasBit7 (s : State) : Bool := (List.range (ilenLen s)).any fun k => (Memory.read s.ibuf k).getLsbD 7

/-- How many of the input's codes are 0x7F or below (43_names.md R171). -/
def inputAsciiCount (s : State) : Nat :=
  ((List.range (ilenLen s)).filter fun k => !(Memory.read s.ibuf k).getLsbD 7).length

/-- The cause of each command fault, by the commands that raise it (60_exceptions.md R210). -/
def faultCause (i : Instr) (s : State) : CmdFault → Bool
  | .illegal => false
  | .bounds =>
    (i ∉ [.nop, .enc14hl, .enc14lh]) && decide (ilenLen s > s.bufBytes.val)
  | .short => (i ∈ [.cksum, .withck]) && decide (ilenLen s < 2)
  | .range =>
    ((i ∈ [.enc14hl, .enc14lh]) && decide (s.arg.toNat ≥ 16384)) ||
      ((i ∈ [.unpackb]) && decide (s.arg.toNat > s.bufBytes.val))
  | .length =>
    ((i ∈ [.dec14hl, .dec14lh]) && decide (ilenLen s ≠ 2)) || ((i ∈ [.dec21]) && decide (ilenLen s ≠ 3)) ||
      ((i ∈ [.namedec32]) && decide (ilenLen s ≠ 32)) || ((i ∈ [.nameenc32]) && decide (inputAsciiCount s > 32)) ||
      ((i ∈ [.unpackb]) && decide (ilenLen s ≠ Spec.packedSize s.arg.toNat (pkmode s)))
  | .data8 => (i ∈ [.dec14hl, .dec14lh, .dec21, .namedec32, .unpackb]) && inputHasBit7 s
  | .overflow =>
    ((i ∈ [.wrap]) && decide (ilenLen s + 6 > s.bufBytes.val)) ||
      ((i ∈ [.packb]) && decide (Spec.packedSize (ilenLen s) (pkmode s) > s.bufBytes.val))

/-! ## The invariant -/

/-- Both buffers are in canonical form and list no index at or above BUF_BYTES (10_state.md R31, R32). -/
def BuffersWf (s : State) : Prop :=
  Memory.wf s.ibuf ∧ Memory.below s.ibuf s.bufBytes.val ∧ Memory.wf s.obuf ∧ Memory.below s.obuf s.bufBytes.val

/-- The reserved bits of every register are 0 (10_state.md R22). -/
def ReservedZero (s : State) : Prop := ∀ r : Reg, rawReg r s &&& ~~~ definedBits r = 0#32

/-- STATUS is one the block can show (10_state.md R24, 60_exceptions.md R210): DONE and ERR are not both 1, ERR is 1 exactly when
ECODE is not 0x00, ECODE is at most 0x07, and a class-1 ECODE comes with FAULTSEEN. -/
def StatusLegal (s : State) : Prop :=
  (statusDone s.status && statusErr s.status) = false ∧
    (statusErr s.status = true ↔ statusEcode s.status ≠ 0x00#8) ∧
    (statusEcode s.status).toNat ≤ 7 ∧
    (statusEcode s.status ≠ 0x00#8 → statusEcode s.status ≠ 0x06#8 → statusFaultSeen s.status = true)

/-- DONE and ERR are both 0 only after reset, before the first command (10_state.md R24): then the outputs hold their reset
values and no command has been stored. -/
def FreshUntilCommand (s : State) : Prop :=
  statusDone s.status = false → statusErr s.status = false →
    s.cmd = 0#32 ∧ s.res = 0#32 ∧ s.olen = 0#32 ∧ s.frm = 0#32 ∧ s.obuf = [] ∧ statusFaultSeen s.status = false

/-- OLEN never passes the buffer (10_state.md R29, R32). -/
def OutputFits (s : State) : Prop := olenLen s ≤ s.bufBytes.val

/-- The invariant every step keeps. -/
def Inv (s : State) : Prop :=
  BuffersWf s ∧ ReservedZero s ∧ StatusLegal s ∧ FreshUntilCommand s ∧ OutputFits s

end Sys2Proof.Machine
end

