-- ==== Sys2Proof/Certificates/Slice0/Obligations.lean ====
section
/-! DEFINITION. The statements for the provers, from the numbered rules of spec/. Each docstring names the rule it formalises. The
results of commands are written with the rules' own arithmetic on natural numbers, lists and folds, not with the functions the
meanings call. -/

open Sys2Proof Sys2Proof.Machine

/-! ## Terms of the rules -/

/-- `xorfold(s)` as a fold from the left (00_scope.md R10). -/
def Sys2Proof.Spec.xorOf (l : List Byte) : Byte := l.foldl (fun x b => x ^^^ b) 0x00#8

/-- `xorfold(s) & 0x7F`. -/
def Sys2Proof.Spec.xor7 (l : List Byte) : Byte := Sys2Proof.Spec.xorOf l &&& 0x7F#8

/-- The header bytes (41_envelope.md R100). -/
def Sys2Proof.Spec.header : List Byte := [0xF0#8, 0x00#8, 0x01#8, 0x74#8]

/-- The whitespace codes (43_names.md R174). -/
def Sys2Proof.Spec.whitespace : List Byte := [0x09#8, 0x0A#8, 0x0B#8, 0x0C#8, 0x0D#8, 0x20#8]

/-- The ECODE column of the table of 60_exceptions.md R210. -/
def Sys2Proof.Spec.ecode : CmdFault → Byte
  | .illegal => 0x01#8
  | .bounds => 0x02#8
  | .short => 0x03#8
  | .length => 0x04#8
  | .range => 0x05#8
  | .data8 => 0x06#8
  | .overflow => 0x07#8

/-- One round of the packer's loop as 43_names.md R183 writes it: in mode 1 a fresh byte at a group boundary, the code's high bits
ORed into the last byte, its low bits appended. -/
def Sys2Proof.Spec.packRound (m : Bool) (codes : List Byte) (out : List Byte) (i : Nat) : List Byte :=
  let out := if m = true ∧ i > 0 ∧ i % 7 = 0 then out ++ [0x00#8] else out
  let s := i % 7 + 1
  let c := codes.getD i 0x00#8
  out.dropLast ++ [out.getLastD 0x00#8 ||| (c >>> s), (c <<< (8 - s - 1)) &&& 0x7F#8]

/-- What code `i` contributes to byte `j` of the packed bytes (43_names.md R182). -/
def Sys2Proof.Spec.packPart (m : Bool) (codes : List Byte) (j i : Nat) : Byte :=
  let s := i % 7 + 1
  let h := if m then i + i / 7 else i
  let c := codes.getD i 0x00#8
  (if h = j then c >>> s else 0x00#8) ||| (if h + 1 = j then (c <<< (7 - s)) &&& 0x7F#8 else 0x00#8)

open Sys2Proof.Spec

/-! ## Encoding -/

/-- Every well-formed instruction is what its host access decodes to (30_encoding.md R70, R72, R73). That a command's access is not
also a well-formed WR is the model's (assumption 5). -/
def Obligations.DecodeOfEncodeGivesTheInstruction : Prop :=
  ∀ i : Instr, WellFormed i = true → decodeAccess (encode i) = i

/-- Decoding a host access loses neither the kind, the offset, nor the data the access uses (30_encoding.md R72): the low byte of a
write, and the whole word of a word write that is not to CMD. The first clause, that what is decoded is well formed, says that each
access has one spelling, which is the model's choice and no rule of the spec (assumption 5). -/
def Obligations.DecodedAccessIsWellFormedAndLosesNothing : Prop :=
  ∀ x : HostAccess,
    WellFormed (decodeAccess x) = true ∧ (encode (decodeAccess x)).kind = x.kind ∧
      (encode (decodeAccess x)).offset = x.offset ∧
      ((x.kind = 0b01#2 ∨ x.kind = 0b11#2) → (encode (decodeAccess x)).data.setWidth 8 = x.data.setWidth 8) ∧
      (x.kind = 0b01#2 → x.offset ≠ 0x0000#16 → (encode (decodeAccess x)).data = x.data)

/-- A code selects the row of the command map whose code equals it, and no other row (30_encoding.md R73). -/
def Obligations.EachCodeSelectsItsCommand : Prop :=
  ∀ code : Byte,
    (decodeCode code = .ok .nop ↔ code = 0x00#8) ∧ (decodeCode code = .ok .cksum ↔ code = 0x01#8) ∧
      (decodeCode code = .ok .withck ↔ code = 0x02#8) ∧ (decodeCode code = .ok .wrap ↔ code = 0x03#8) ∧
      (decodeCode code = .ok .framedec ↔ code = 0x04#8) ∧ (decodeCode code = .ok .enc14hl ↔ code = 0x10#8) ∧
      (decodeCode code = .ok .enc14lh ↔ code = 0x11#8) ∧ (decodeCode code = .ok .dec14hl ↔ code = 0x12#8) ∧
      (decodeCode code = .ok .dec14lh ↔ code = 0x13#8) ∧ (decodeCode code = .ok .dec21 ↔ code = 0x14#8) ∧
      (decodeCode code = .ok .nameenc32 ↔ code = 0x20#8) ∧ (decodeCode code = .ok .namedec32 ↔ code = 0x21#8) ∧
      (decodeCode code = .ok .packb ↔ code = 0x22#8) ∧ (decodeCode code = .ok .unpackb ↔ code = 0x23#8) ∧
      ∀ i, decodeCode code = .ok i → commandCode i = some code

/-- The reserved codes are 0x05 to 0x0F, 0x15 to 0x1F and 0x24 to 0xFF, and no others; writing one to CMD stores it in CMD.CODE
and ends with E_ILLEGAL, ECODE 0x01, a class-1 fault (30_encoding.md R74). -/
def Obligations.ReservedCodesFaultIllegal : Prop :=
  ∀ code : Byte,
    (decodeCode code = .error (.reservedCode code) ↔
      (0x05 ≤ code.toNat ∧ code.toNat ≤ 0x0F) ∨ (0x15 ≤ code.toNat ∧ code.toNat ≤ 0x1F) ∨ 0x24 ≤ code.toNat) ∧
      ∀ (s : State) (v : Word), decodeCode code = .error (.reservedCode code) → v.setWidth 8 = code →
        ∃ t, exec (.wr 0x0000#16 v) s = .next t ∧ FaultsWith code .illegal s t ∧
          statusEcode t.status = 0x01#8 ∧ statusFaultSeen t.status = true

/-- Words written out from the spec's encodings (30_encoding.md R72, R73; 95_test_vectors.md P1 to P5, V-ACC-14) decode to the
instructions they stand for. That a WW32 to CMD decodes to the command and not to a WR is the model's (assumption 5). -/
def Obligations.SpecWordsDecodeToTheirInstructions : Prop :=
  decodeAccess ⟨0b01#2, 0x0000#16, 0x00000010#32⟩ = .enc14hl ∧
    decodeAccess ⟨0b01#2, 0x0000#16, 0x00000003#32⟩ = .wrap ∧
    decodeAccess ⟨0b01#2, 0x0000#16, 0x00000022#32⟩ = .packb ∧
    decodeAccess ⟨0b01#2, 0x0000#16, 0x00000000#32⟩ = .nop ∧
    decodeAccess ⟨0b01#2, 0x0000#16, 0x00000101#32⟩ = .cksum ∧
    decodeAccess ⟨0b01#2, 0x0000#16, 0x00000099#32⟩ = .wr 0x0000#16 0x00000099#32 ∧
    decodeAccess ⟨0b01#2, 0x0008#16, 0x00000080#32⟩ = .wr 0x0008#16 0x00000080#32 ∧
    decodeAccess ⟨0b00#2, 0x0004#16, 0x00000000#32⟩ = .rd 0x0004#16 ∧
    decodeAccess ⟨0b10#2, 0x2001#16, 0x00000000#32⟩ = .rdb 0x2001#16 ∧
    decodeAccess ⟨0b11#2, 0x1001#16, 0x0000003C#32⟩ = .wrb 0x1001#16 0x3C#8

/-! ## Steps and reset -/

/-- A step whose next event is an access, with the reset input released, runs exactly the decoded instruction on the state with
that event taken off: accesses take effect one at a time, in the host's order (20_memory.md R58, R60). The list of events and the
level of the reset input are the model's choices (assumptions 1, 2, 7). -/
def Obligations.StepRunsTheDecodedAccess : Prop :=
  ∀ (s : State) (x : HostAccess) (rest : List HostEvent), s.pending = .access x :: rest → s.resetLine = false →
    step s = exec (decodeAccess x) { s with pending := rest }

/-- With no event pending, a step keeps all state (60_exceptions.md R235: all state is kept while the block is powered). That the
machine has such a step at all is the model's choice (assumption 2). -/
def Obligations.IdleStepKeepsEverything : Prop :=
  ∀ s : State, s.pending = [] → step s = .next s

/-- Asserting the reset input sets every register to 0 and every byte of both buffers to 0x00, keeps BUF_BYTES, and is one event;
releasing it changes nothing else (70_reset_and_hazards.md R240). The level of the input, and that the host's plan and log
survive, are the model's (assumptions 7, 14). -/
def Obligations.ResetInputClearsTheWholeBlock : Prop :=
  ∀ (s : State) (rest : List HostEvent),
    (s.pending = .assertReset :: rest →
      ∃ t, step s = .next t ∧
        (∀ r : Reg, rawReg r t = 0#32) ∧ (∀ k, Memory.read t.ibuf k = 0x00#8) ∧ (∀ k, Memory.read t.obuf k = 0x00#8) ∧
        t.bufBytes = s.bufBytes ∧ t.pending = rest ∧ t.returned = s.returned ∧ t.resetLine = true) ∧
      (s.pending = .releaseReset :: rest → step s = .next { s with pending := rest, resetLine := false })

/-- A host access while reset is asserted has no step (93_implementation_defined.md section 5; 70_reset_and_hazards.md R240). That the
machine says so with a stop of its own is the model's (assumption 6), as is the level of the reset input (assumption 7). -/
def Obligations.AccessDuringResetStops : Prop :=
  ∀ (s : State) (x : HostAccess) (rest : List HostEvent), s.pending = .access x :: rest → s.resetLine = true →
    step s = .fault .accessDuringReset

/-- The reset values (10_state.md R34): every register 0x00000000, with STATUS's fields all 0 and PKMODE 0, and every byte of both
buffers 0x00. -/
def Obligations.ResetStateIsAllZero : Prop :=
  (∀ r : Reg, rawReg r State.reset = 0#32) ∧
    statusDone State.reset.status = false ∧ statusErr State.reset.status = false ∧
    statusFaultSeen State.reset.status = false ∧ statusAccErr State.reset.status = false ∧
    statusEcode State.reset.status = 0x00#8 ∧ pkmode State.reset = false ∧
    (∀ k, Memory.read State.reset.ibuf k = 0x00#8) ∧ ∀ k, Memory.read State.reset.obuf k = 0x00#8

/-- Only reset clears FAULTSEEN and ACCERR (10_state.md R24; 60_exceptions.md R213, R220): no access, no command and no other
event does. -/
def Obligations.OnlyResetClearsTheStickyBits : Prop :=
  ∀ s t : State, step s = .next t → s.pending.head? ≠ some .assertReset →
    (statusFaultSeen s.status = true → statusFaultSeen t.status = true) ∧
      (statusAccErr s.status = true → statusAccErr t.status = true)

/-- Every step keeps the invariant: canonical buffers inside BUF_BYTES, reserved bits 0, a STATUS the block can show, untouched
outputs until the first command, and OLEN inside the buffer (10_state.md R22 to R32; 60_exceptions.md R210, R211). The canonical form
of the buffers and the reserved bits of the stored words are the model's (assumptions 11, 15). -/
def Obligations.StepKeepsTheInvariant : Prop :=
  ∀ s t : State, Inv s → step s = .next t → Inv t

/-- The state after reset meets the invariant (10_state.md R34). -/
def Obligations.ResetStateMeetsTheInvariant : Prop := Inv State.reset

/-- Every step has a next state but one: an access while reset is asserted (60_exceptions.md R211: the block goes on accepting host
accesses and commands at once; 93_implementation_defined.md section 5). The stop and the level of the reset input are the model's
(assumptions 6, 7). -/
def Obligations.StepStopsOnlyOnAccessDuringReset : Prop :=
  ∀ s : State,
    (∃ t, step s = .next t) ∨
      (step s = .fault .accessDuringReset ∧ s.resetLine = true ∧ ∃ x rest, s.pending = .access x :: rest)

/-! ## Host accesses -/

/-- RD returns a register's 32-bit value with reserved bits 0, and changes nothing of the block (20_memory.md R54, R59;
10_state.md R22 to R30). That the value is kept in `returned` is the model's (assumption 1). -/
def Obligations.RdReturnsTheRegister : Prop :=
  ∀ s : State,
    exec (.rd 0x0000#16) s = .next { s with returned := s.returned ++ [.word (s.cmd &&& 0x000000FF#32)] } ∧
    exec (.rd 0x0004#16) s = .next { s with returned := s.returned ++ [.word (s.status &&& 0x0000FF0F#32)] } ∧
    exec (.rd 0x0008#16) s = .next { s with returned := s.returned ++ [.word s.arg] } ∧
    exec (.rd 0x000C#16) s = .next { s with returned := s.returned ++ [.word s.res] } ∧
    exec (.rd 0x0010#16) s = .next { s with returned := s.returned ++ [.word (s.cfg &&& 0x00000001#32)] } ∧
    exec (.rd 0x0014#16) s = .next { s with returned := s.returned ++ [.word (s.ilen &&& 0x0000FFFF#32)] } ∧
    exec (.rd 0x0018#16) s = .next { s with returned := s.returned ++ [.word (s.olen &&& 0x0000FFFF#32)] } ∧
    exec (.rd 0x001C#16) s = .next { s with returned := s.returned ++ [.word (s.frm &&& 0x7FFFFFFF#32)] }

/-- WR at ARG, CFG and ILEN stores the defined fields and nothing else (20_memory.md R54; 10_state.md R25, R27, R28). -/
def Obligations.WrStoresTheDefinedFields : Prop :=
  ∀ (s : State) (v : Word),
    exec (.wr 0x0008#16 v) s = .next { s with arg := v } ∧
    exec (.wr 0x0010#16 v) s = .next { s with cfg := v &&& 0x00000001#32 } ∧
    exec (.wr 0x0014#16 v) s = .next { s with ilen := v &&& 0x0000FFFF#32 }

/-- WR at a read-only register completes and changes nothing (10_state.md R22, 20_memory.md R54). -/
def Obligations.WrToReadOnlyRegisterIsIgnored : Prop :=
  ∀ (s : State) (v : Word),
    exec (.wr 0x0004#16 v) s = .next s ∧ exec (.wr 0x000C#16 v) s = .next s ∧
    exec (.wr 0x0018#16 v) s = .next s ∧ exec (.wr 0x001C#16 v) s = .next s

/-- WR at CMD runs the command its low byte names, whatever bits 31 to 8 hold (40_control.md R90; 30_encoding.md R70). -/
def Obligations.WrToCmdRunsTheNamedCommand : Prop :=
  ∀ (s : State) (v : Word) (i : Instr), decodeCode (v.setWidth 8) = .ok i → exec (.wr 0x0000#16 v) s = exec i s

/-- RDB returns the byte of IBUF or OBUF at its index, and changes nothing of the block (20_memory.md R52, R53). That the value is
kept in `returned` is the model's (assumption 1). -/
def Obligations.RdbReturnsTheBufferByte : Prop :=
  ∀ (s : State) (k : Nat), k < s.bufBytes.val →
    exec (.rdb (BitVec.ofNat 16 (0x1000 + k))) s =
        .next { s with returned := s.returned ++ [.byte (Memory.read s.ibuf k)] } ∧
      exec (.rdb (BitVec.ofNat 16 (0x2000 + k))) s =
        .next { s with returned := s.returned ++ [.byte (Memory.read s.obuf k)] }

/-- WRB at an IBUF offset stores the byte at its index and leaves every other byte, and everything else, alone (20_memory.md R52,
R53). -/
def Obligations.WrbStoresOneInputByte : Prop :=
  ∀ (s : State) (k : Nat) (v : Byte), Memory.wf s.ibuf → k < s.bufBytes.val →
    ∃ t, exec (.wrb (BitVec.ofNat 16 (0x1000 + k)) v) s = .next t ∧
      (∀ j, Memory.read t.ibuf j = if j = k then v else Memory.read s.ibuf j) ∧ t = { s with ibuf := t.ibuf }

/-- WRB at an OBUF offset completes without error and changes nothing (20_memory.md R53). -/
def Obligations.WrbToOutputBufferIsIgnored : Prop :=
  ∀ (s : State) (k : Nat) (v : Byte), k < s.bufBytes.val →
    exec (.wrb (BitVec.ofNat 16 (0x2000 + k)) v) s = .next s

/-- A word access outside the register window or at an offset that is not a multiple of 4, and a byte access outside both buffer
windows, is an access error: ACCERR becomes 1 and nothing else changes, no command runs, and the host gets only an error response
(20_memory.md R55, 60_exceptions.md R220). That a write's error response is recorded too is the model's (assumption 8). -/
def Obligations.AccessErrorSetsOnlyAccerr : Prop :=
  ∀ (s : State) (a : Offset) (v : Word) (b : Byte),
    (a.toNat > 0x001F ∨ a.toNat % 4 ≠ 0 →
      (∃ t, exec (.rd a) s = .next t ∧ EndsInAccessError .readError s t) ∧
        ∃ t, exec (.wr a v) s = .next t ∧ EndsInAccessError .writeError s t) ∧
    (¬ (0x1000 ≤ a.toNat ∧ a.toNat < 0x1000 + s.bufBytes.val) →
      ¬ (0x2000 ≤ a.toNat ∧ a.toNat < 0x2000 + s.bufBytes.val) →
      (∃ t, exec (.rdb a) s = .next t ∧ EndsInAccessError .readError s t) ∧
        ∃ t, exec (.wrb a b) s = .next t ∧ EndsInAccessError .writeError s t)

/-- A host access that is no WW32 to CMD has no effect beyond its own location (20_memory.md R59, R54; 60_exceptions.md R220, R221): ARG,
CFG and ILEN change only by a WR at their own offset, an IBUF byte only by a WRB at its own, STATUS only by an access error, and
then only in ACCERR, and nothing else of the block changes. -/
def Obligations.OnlyCmdWritesHaveSideEffects : Prop :=
  ∀ (i : Instr) (s t : State), commandCode i = none → (∀ v, i ≠ .wr 0x0000#16 v) → exec i s = .next t →
    (t.cmd = s.cmd ∧ t.res = s.res ∧ t.olen = s.olen ∧ t.frm = s.frm ∧ t.obuf = s.obuf ∧ t.bufBytes = s.bufBytes ∧
      t.pending = s.pending ∧ t.resetLine = s.resetLine) ∧
    ((∀ v, i ≠ .wr 0x0008#16 v) → t.arg = s.arg) ∧
    ((∀ v, i ≠ .wr 0x0010#16 v) → t.cfg = s.cfg) ∧
    ((∀ v, i ≠ .wr 0x0014#16 v) → t.ilen = s.ilen) ∧
    ((∀ a v, i ≠ .wrb a v) → t.ibuf = s.ibuf) ∧
    (Memory.wf s.ibuf → ∀ k, (∀ v, i ≠ .wrb (BitVec.ofNat 16 (0x1000 + k)) v) →
      Memory.read t.ibuf k = Memory.read s.ibuf k) ∧
    (∀ j, j ≠ 3 → t.status.getLsbD j = s.status.getLsbD j) ∧
    (¬ AccessIsError i s → t.status = s.status)

/-! ## Every command -/

/-- Every command, in every state, ends in a next state in one of two ways: it completes (40_control.md R91), or it faults and
then nothing but CMD.CODE and STATUS changes (60_exceptions.md R211). -/
def Obligations.EveryCommandCompletesOrFaults : Prop :=
  ∀ (i : Instr) (code : Byte) (s : State), commandCode i = some code →
    ∃ t, exec i s = .next t ∧ (Completes code s t ∨ ∃ f, FaultsWith code f s t)

/-- The frame of the commands' outputs: only FRAMEDEC writes FRM; NOP, CKSUM, DEC14HL, DEC14LH and DEC21 leave OLEN and OBUF
unchanged; NOP leaves RES unchanged; and no command changes an OBUF byte at or above the OLEN it leaves (10_state.md R26, R29,
R30, R32; 30_encoding.md R71). -/
def Obligations.CommandsWriteOnlyTheirOutputs : Prop :=
  ∀ (i : Instr) (code : Byte) (s t : State), commandCode i = some code → Memory.wf s.obuf → exec i s = .next t →
    KeepsOperands s t ∧
      (i ≠ .framedec → t.frm = s.frm) ∧
      (i = .nop → t.res = s.res) ∧
      (i ∈ [.nop, .cksum, .dec14hl, .dec14lh, .dec21] → t.olen = s.olen ∧ t.obuf = s.obuf) ∧
      ∀ k, olenLen t ≤ k → Memory.read t.obuf k = Memory.read s.obuf k

/-- Every command but NOP, ENC14HL and ENC14LH faults with E_BOUNDS when ILEN.LEN > BUF_BYTES (40_control.md R90). -/
def Obligations.LongInputFaultsBounds : Prop :=
  ∀ (i : Instr) (code : Byte) (s : State), commandCode i = some code → i ∉ [Instr.nop, .enc14hl, .enc14lh] →
    ilenLen s > s.bufBytes.val → ∃ t, exec i s = .next t ∧ FaultsWith code .bounds s t

/-- A command reports the first fault, in the priority order of 60_exceptions.md R212, whose cause (R210) holds, and no fault when
none does: ECODE is the number R210's table gives that fault, and FAULTSEEN becomes 1 for every fault but E_DATA8, which keeps it, as
a completed command does (R211). -/
def Obligations.ReportedFaultIsTheFirstThatHolds : Prop :=
  ∀ (i : Instr) (code : Byte) (s t : State), commandCode i = some code → exec i s = .next t →
    match faultPriority.find? (faultCause i s) with
    | some f =>
      statusEcode t.status = ecode f ∧ statusErr t.status = true ∧
        statusFaultSeen t.status = (if f = .data8 then statusFaultSeen s.status else true)
    | none =>
      statusEcode t.status = 0x00#8 ∧ statusErr t.status = false ∧ statusFaultSeen t.status = statusFaultSeen s.status

/-- A command reads only ILEN, `IBUF[0..ILEN.LEN)`, ARG and CFG (20_memory.md R59; 30_encoding.md R71): two states of one machine
that agree on these end alike, and each output is either left alone in both or the same in both. -/
def Obligations.CommandsReadOnlyTheirOperands : Prop :=
  ∀ (i : Instr) (code : Byte) (s u s' u' : State), commandCode i = some code →
    u.ilen = s.ilen → u.arg = s.arg → u.cfg = s.cfg → u.bufBytes = s.bufBytes →
    (∀ k, k < ilenLen s → Memory.read u.ibuf k = Memory.read s.ibuf k) →
    Memory.wf s.obuf → Memory.wf u.obuf → exec i s = .next s' → exec i u = .next u' →
    u'.cmd = s'.cmd ∧ statusDone u'.status = statusDone s'.status ∧ statusErr u'.status = statusErr s'.status ∧
      statusEcode u'.status = statusEcode s'.status ∧
      ((u'.res = u.res ∧ s'.res = s.res) ∨ u'.res = s'.res) ∧
      ((u'.frm = u.frm ∧ s'.frm = s.frm) ∨ u'.frm = s'.frm) ∧
      ((u'.olen = u.olen ∧ s'.olen = s.olen) ∨ u'.olen = s'.olen) ∧
      ∀ k, (Memory.read u'.obuf k = Memory.read u.obuf k ∧ Memory.read s'.obuf k = Memory.read s.obuf k) ∨
        Memory.read u'.obuf k = Memory.read s'.obuf k

/-- Writing the same code to CMD twice in a row leaves the same state as writing it once (20_memory.md R59). -/
def Obligations.SameCommandTwiceIsOnce : Prop :=
  ∀ (i : Instr) (code : Byte) (s t : State), commandCode i = some code → Memory.wf s.obuf → exec i s = .next t →
    exec i t = .next t

/-! ## NOP -/

/-- NOP (40_control.md R92): it writes STATUS only, never faults, whatever ILEN holds, and keeps the sticky bits; writing 0x00 to
CMD runs it; after reset it gives STATUS = 0x00000001. -/
def Obligations.NopTouchesOnlyStatus : Prop :=
  (∀ s : State, ∃ t, exec .nop s = .next t ∧ Completes 0x00#8 s t ∧ KeepsOutputs s t) ∧
    (∀ (s : State) (v : Word), v.setWidth 8 = 0x00#8 → exec (.wr 0x0000#16 v) s = exec .nop s) ∧
    ∃ t, exec .nop State.reset = .next t ∧ t.status = 0x00000001#32

/-! ## The envelope -/

/-- CKSUM (41_envelope.md R105): the XOR of every byte but the last, bits 6 to 0, to RES; E_SHORT under 2 bytes; E_BOUNDS above
BUF_BYTES. OBUF, OLEN and FRM are unchanged. -/
def Obligations.CksumResult : Prop :=
  ∀ s : State,
    (ilenLen s > s.bufBytes.val → ∃ t, exec .cksum s = .next t ∧ FaultsWith 0x01#8 .bounds s t) ∧
    ∀ f : List Byte, InputIs f s →
      (f.length < 2 → ∃ t, exec .cksum s = .next t ∧ FaultsWith 0x01#8 .short s t) ∧
      (2 ≤ f.length → ∃ t, exec .cksum s = .next t ∧ Completes 0x01#8 s t ∧
        t.res = (xor7 (f.take (f.length - 1))).setWidth 32 ∧ t.olen = s.olen ∧ t.obuf = s.obuf ∧ t.frm = s.frm)

/-- The checksum laws, which the spec derives from R102 (41_envelope.md R103): 7-bit-safe; the last byte never matters; neither
does the order of the others, and a byte that occurs twice cancels out; bit 7 of every byte is irrelevant; and the header
contributes 0x05. -/
def Obligations.ChecksumLaws : Prop :=
  (∀ f : List Byte, (checksum f).toNat ≤ 0x7F) ∧
    (∀ (f : List Byte) (x y : Byte), checksum (f ++ [x]) = checksum (f ++ [y])) ∧
    (∀ (f g : List Byte) (x : Byte), f.Perm g → checksum (f ++ [x]) = checksum (g ++ [x])) ∧
    (∀ (f : List Byte) (b x : Byte), checksum (b :: b :: f ++ [x]) = checksum (f ++ [x])) ∧
    (∀ a b : Byte, (a ^^^ b) &&& 0x7F#8 = (a &&& 0x7F#8) ^^^ (b &&& 0x7F#8)) ∧
    (∀ f : List Byte, checksum (f.map fun b => b &&& 0x7F#8) = checksum f) ∧
    xorFold header = 0x85#8 ∧
    ∀ (t : List Byte) (x y : Byte), checksum (header ++ t ++ [x, y]) = 0x05#8 ^^^ (xorFold (t ++ [x]) &&& 0x7F#8)

/-- CKSUM of a complete frame that WRAP built is 0, not its stored checksum (41_envelope.md R105, corner case; 95_test_vectors.md
X9), whatever the body. -/
def Obligations.CksumOfWrappedFrameIsZero : Prop :=
  ∀ (s t u : State) (b : List Byte), InputIs b s → b.length + 6 ≤ s.bufBytes.val → Memory.wf s.obuf →
    exec .wrap s = .next t → FeedsTo t u → ∃ v, exec .cksum u = .next v ∧ Completes 0x01#8 u v ∧ v.res = 0x00000000#32

/-- WITHCK (41_envelope.md R108): the slot, the second-to-last byte, takes the checksum of the whole sequence, the old slot
included; the other bytes are copied, the terminator unchecked. -/
def Obligations.WithckResult : Prop :=
  ∀ s : State,
    (ilenLen s > s.bufBytes.val → ∃ t, exec .withck s = .next t ∧ FaultsWith 0x02#8 .bounds s t) ∧
    ∀ f : List Byte, InputIs f s →
      (f.length < 2 → ∃ t, exec .withck s = .next t ∧ FaultsWith 0x02#8 .short s t) ∧
      (2 ≤ f.length → Memory.wf s.obuf → ∃ t, exec .withck s = .next t ∧ Completes 0x02#8 s t ∧
        WritesOut (f.take (f.length - 2) ++ [xor7 (f.take (f.length - 1)), f.getD (f.length - 1) 0x00#8]) s t ∧
        t.res = (xor7 (f.take (f.length - 1))).setWidth 32 ∧ t.frm = s.frm)

/-- WITHCK is not idempotent (41_envelope.md R109, which the spec derives from R108): on a sequence whose slot has bits 6 to 0
zero, a second run on the output of the first puts 0 in the slot, and a third run puts the first run's value there again. -/
def Obligations.WithckAgainClearsTheSlot : Prop :=
  ∀ (s t u v w x : State) (f : List Byte), InputIs f s → 2 ≤ f.length → f.getD (f.length - 2) 0x00#8 &&& 0x7F#8 = 0x00#8 →
    Memory.wf s.obuf → Memory.wf u.obuf → Memory.wf w.obuf →
    exec .withck s = .next t → FeedsTo t u → exec .withck u = .next v → FeedsTo v w → exec .withck w = .next x →
    Memory.read t.obuf (f.length - 2) = xor7 (f.take (f.length - 2)) ∧
      Memory.read v.obuf (f.length - 2) = 0x00#8 ∧
      Memory.read x.obuf (f.length - 2) = Memory.read t.obuf (f.length - 2)

/-- WRAP (41_envelope.md R111): the header, the body, the checksum of header and body, the terminator; E_OVERFLOW when it does not
fit OBUF. The body is framed whatever its bytes. -/
def Obligations.WrapResult : Prop :=
  ∀ s : State,
    (ilenLen s > s.bufBytes.val → ∃ t, exec .wrap s = .next t ∧ FaultsWith 0x03#8 .bounds s t) ∧
    ∀ b : List Byte, InputIs b s →
      (b.length + 6 > s.bufBytes.val → ∃ t, exec .wrap s = .next t ∧ FaultsWith 0x03#8 .overflow s t) ∧
      (b.length + 6 ≤ s.bufBytes.val → Memory.wf s.obuf → ∃ t, exec .wrap s = .next t ∧ Completes 0x03#8 s t ∧
        WritesOut (header ++ b ++ [xor7 (header ++ b), 0xF7#8]) s t ∧
        t.olen = BitVec.ofNat 32 (b.length + 6) ∧ t.res = (xor7 (header ++ b)).setWidth 32 ∧ t.frm = s.frm)

/-- FRAMEDEC (41_envelope.md R120): under 8 bytes RES, FRM and OLEN are 0 and OBUF is left alone; from 8 bytes on, the six flags
to RES, the four fields to FRM and the payload to OBUF. No byte sequence makes it fault. -/
def Obligations.FramedecResult : Prop :=
  ∀ s : State,
    (ilenLen s > s.bufBytes.val → ∃ t, exec .framedec s = .next t ∧ FaultsWith 0x04#8 .bounds s t) ∧
    ∀ f : List Byte, InputIs f s →
      (f.length < 8 → ∃ t, exec .framedec s = .next t ∧ Completes 0x04#8 s t ∧
        t.res = 0#32 ∧ t.frm = 0#32 ∧ t.olen = 0#32 ∧ t.obuf = s.obuf) ∧
      (8 ≤ f.length → Memory.wf s.obuf → ∃ t, exec .framedec s = .next t ∧ Completes 0x04#8 s t ∧
        t.res.getLsbD 0 = true ∧
        (t.res.getLsbD 1 = true ↔ f.take 4 = header) ∧
        (t.res.getLsbD 2 = true ↔ f.getD (f.length - 1) 0x00#8 = 0xF7#8) ∧
        (t.res.getLsbD 3 = true ↔ f.getD (f.length - 2) 0x00#8 = xor7 (f.take (f.length - 2))) ∧
        (t.res.getLsbD 4 = true ↔ ∀ k, 4 ≤ k → k ≤ f.length - 2 → (f.getD k 0x00#8).toNat ≤ 0x7F) ∧
        t.res.getLsbD 5 = (t.res.getLsbD 1 && t.res.getLsbD 2 && t.res.getLsbD 3 && t.res.getLsbD 4) ∧
        t.res.toNat < 64 ∧
        frmModel t.frm = f.getD 4 0x00#8 ∧ frmOpcode t.frm = f.getD 5 0x00#8 ∧
        frmCkStored t.frm = f.getD (f.length - 2) 0x00#8 ∧
        (frmCkCalc t.frm).setWidth 8 = xor7 (f.take (f.length - 2)) ∧ t.frm.getLsbD 31 = false ∧
        WritesOut ((f.take (f.length - 2)).drop 6) s t)

/-- WRAP's laws (41_envelope.md R112, which the spec derives from R102, R111, R120): for a body of at least 2 bytes, all
7-bit-safe, FRAMEDEC of WRAP's output reports every flag 1 and gives back the model, the opcode and the payload. -/
def Obligations.FramedecAcceptsWhatWrapBuilt : Prop :=
  ∀ (s t u : State) (b : List Byte), InputIs b s → 2 ≤ b.length → (∀ c ∈ b, c.toNat ≤ 0x7F) →
    b.length + 6 ≤ s.bufBytes.val → Memory.wf s.obuf → Memory.wf u.obuf → exec .wrap s = .next t → FeedsTo t u →
    ∃ v, exec .framedec u = .next v ∧ Completes 0x04#8 u v ∧ v.res = 0x0000003F#32 ∧
      frmModel v.frm = b.getD 0 0x00#8 ∧ frmOpcode v.frm = b.getD 1 0x00#8 ∧ WritesOut (b.drop 2) u v

/-! ## 7-bit-safe integers -/

/-- ENC14HL (42_int7.md R142): `[v div 128, v mod 128]` for `v = ARG` below 2^14, E_RANGE from 2^14 on, whatever ILEN holds. -/
def Obligations.Enc14hlResult : Prop :=
  ∀ s : State,
    (s.arg.toNat ≥ 16384 → ∃ t, exec .enc14hl s = .next t ∧ FaultsWith 0x10#8 .range s t) ∧
    (s.arg.toNat < 16384 → Memory.wf s.obuf → ∃ t, exec .enc14hl s = .next t ∧ Completes 0x10#8 s t ∧
      WritesOut [BitVec.ofNat 8 (s.arg.toNat / 128), BitVec.ofNat 8 (s.arg.toNat % 128)] s t ∧
      t.res = s.arg ∧ t.frm = s.frm)

/-- ENC14LH (42_int7.md R143): `[v mod 128, v div 128]`. -/
def Obligations.Enc14lhResult : Prop :=
  ∀ s : State,
    (s.arg.toNat ≥ 16384 → ∃ t, exec .enc14lh s = .next t ∧ FaultsWith 0x11#8 .range s t) ∧
    (s.arg.toNat < 16384 → Memory.wf s.obuf → ∃ t, exec .enc14lh s = .next t ∧ Completes 0x11#8 s t ∧
      WritesOut [BitVec.ofNat 8 (s.arg.toNat % 128), BitVec.ofNat 8 (s.arg.toNat / 128)] s t ∧
      t.res = s.arg ∧ t.frm = s.frm)

/-- DEC14HL (42_int7.md R145): `a * 128 + b` to RES; E_LENGTH unless ILEN is 2; E_DATA8 when a byte has bit 7 set. -/
def Obligations.Dec14hlResult : Prop :=
  ∀ s : State,
    (ilenLen s > s.bufBytes.val → ∃ t, exec .dec14hl s = .next t ∧ FaultsWith 0x12#8 .bounds s t) ∧
    (ilenLen s ≤ s.bufBytes.val → ilenLen s ≠ 2 → ∃ t, exec .dec14hl s = .next t ∧ FaultsWith 0x12#8 .length s t) ∧
    ∀ a b : Byte, InputIs [a, b] s →
      (a.toNat > 0x7F ∨ b.toNat > 0x7F → ∃ t, exec .dec14hl s = .next t ∧ FaultsWith 0x12#8 .data8 s t) ∧
      (a.toNat ≤ 0x7F → b.toNat ≤ 0x7F → ∃ t, exec .dec14hl s = .next t ∧ Completes 0x12#8 s t ∧
        t.res.toNat = a.toNat * 128 + b.toNat ∧ t.olen = s.olen ∧ t.obuf = s.obuf ∧ t.frm = s.frm)

/-- DEC14LH (42_int7.md R146): `a + b * 128` to RES; faults as DEC14HL. -/
def Obligations.Dec14lhResult : Prop :=
  ∀ s : State,
    (ilenLen s > s.bufBytes.val → ∃ t, exec .dec14lh s = .next t ∧ FaultsWith 0x13#8 .bounds s t) ∧
    (ilenLen s ≤ s.bufBytes.val → ilenLen s ≠ 2 → ∃ t, exec .dec14lh s = .next t ∧ FaultsWith 0x13#8 .length s t) ∧
    ∀ a b : Byte, InputIs [a, b] s →
      (a.toNat > 0x7F ∨ b.toNat > 0x7F → ∃ t, exec .dec14lh s = .next t ∧ FaultsWith 0x13#8 .data8 s t) ∧
      (a.toNat ≤ 0x7F → b.toNat ≤ 0x7F → ∃ t, exec .dec14lh s = .next t ∧ Completes 0x13#8 s t ∧
        t.res.toNat = a.toNat + b.toNat * 128 ∧ t.olen = s.olen ∧ t.obuf = s.obuf ∧ t.frm = s.frm)

/-- DEC21 (42_int7.md R151): `a + b * 128 + c * 16384` to RES; E_LENGTH unless ILEN is 3; E_DATA8 when a byte has bit 7 set. The
wire order is the spec's own reading of 'low/mid/high' (R150, D21; assumption 13). -/
def Obligations.Dec21Result : Prop :=
  ∀ s : State,
    (ilenLen s > s.bufBytes.val → ∃ t, exec .dec21 s = .next t ∧ FaultsWith 0x14#8 .bounds s t) ∧
    (ilenLen s ≤ s.bufBytes.val → ilenLen s ≠ 3 → ∃ t, exec .dec21 s = .next t ∧ FaultsWith 0x14#8 .length s t) ∧
    ∀ a b c : Byte, InputIs [a, b, c] s →
      (a.toNat > 0x7F ∨ b.toNat > 0x7F ∨ c.toNat > 0x7F →
        ∃ t, exec .dec21 s = .next t ∧ FaultsWith 0x14#8 .data8 s t) ∧
      (a.toNat ≤ 0x7F → b.toNat ≤ 0x7F → c.toNat ≤ 0x7F →
        ∃ t, exec .dec21 s = .next t ∧ Completes 0x14#8 s t ∧
          t.res.toNat = a.toNat + b.toNat * 128 + c.toNat * 16384 ∧ t.olen = s.olen ∧ t.obuf = s.obuf ∧ t.frm = s.frm)

/-- The 14-bit laws (42_int7.md R147, which the spec derives from R142 to R146), in both byte orders: decoding an encoded number
gives it back; encoding a decoded pair of 7-bit-safe bytes gives the pair back; and DEC14LH of `[a, b]` is DEC14HL of `[b, a]`. -/
def Obligations.FourteenBitLaws : Prop :=
  (∀ (o : ByteOrder) (s t u : State), s.arg.toNat ≤ 16383 → Memory.wf s.obuf → exec (encodeCommand o) s = .next t →
      FeedsTo t u → ∃ v, exec (decodeCommand o) u = .next v ∧ statusDone v.status = true ∧ v.res = s.arg) ∧
    (∀ (o : ByteOrder) (s t u : State) (a b : Byte), InputIs [a, b] s → a.toNat ≤ 0x7F → b.toNat ≤ 0x7F →
      exec (decodeCommand o) s = .next t → u.arg = t.res → Memory.wf u.obuf →
      ∃ v, exec (encodeCommand o) u = .next v ∧ statusDone v.status = true ∧ WritesOut [a, b] u v) ∧
    ∀ (s t u v : State) (a b : Byte), InputIs [a, b] s → InputIs [b, a] u → a.toNat ≤ 0x7F → b.toNat ≤ 0x7F →
      exec .dec14lh s = .next t → exec .dec14hl u = .next v → t.res = v.res

/-- Which protocol field uses which order (42_int7.md R141): preset numbers high-first, tempo low-first, the others the open
parameter ID14_ORDER. -/
def Obligations.ProtocolFieldOrders : Prop :=
  fieldOrder .presetNumber = .hl ∧ fieldOrder .tempo = .lh ∧ fieldOrder .effectId = Config.id14Order ∧
    fieldOrder .parameterId = Config.id14Order ∧ fieldOrder .gridFlatId = Config.id14Order ∧
    fieldOrder .nameIndex = Config.id14Order

/-! ## Names -/

/-- NAMEENC32 (43_names.md R171): codes above 0x7F dropped first, then spaces up to 32; E_LENGTH when more than 32 codes remain.
-/
def Obligations.Nameenc32Result : Prop :=
  ∀ s : State,
    (ilenLen s > s.bufBytes.val → ∃ t, exec .nameenc32 s = .next t ∧ FaultsWith 0x20#8 .bounds s t) ∧
    ∀ f kept : List Byte, InputIs f s → kept = f.filter (fun b => decide (b.toNat ≤ 0x7F)) →
      (kept.length > 32 → ∃ t, exec .nameenc32 s = .next t ∧ FaultsWith 0x20#8 .length s t) ∧
      (kept.length ≤ 32 → Memory.wf s.obuf → ∃ t, exec .nameenc32 s = .next t ∧ Completes 0x20#8 s t ∧
        WritesOut (kept ++ List.replicate (32 - kept.length) 0x20#8) s t ∧ t.olen = 32#32 ∧
        t.res = BitVec.ofNat 32 kept.length ∧ t.frm = s.frm)

/-- The NAMEENC32 law (43_names.md R172, which the spec derives from R171): for every input that does not fault OLEN is 32, and
every output byte is 7-bit-safe. -/
def Obligations.EncodedNameIsAlways32SafeBytes : Prop :=
  ∀ s t : State, Memory.wf s.obuf → exec .nameenc32 s = .next t → statusErr t.status = false →
    t.olen = 32#32 ∧ ∀ k, k < 32 → (Memory.read t.obuf k).toNat ≤ 0x7F

/-- NAMEDEC32 (43_names.md R173, R174): the window without its zero bytes, then without its longest tail of whitespace; E_LENGTH
unless ILEN is 32; E_DATA8 when a byte has bit 7 set. The whitespace set and the order of filter and trim are the spec's own (D23;
assumption 13). -/
def Obligations.Namedec32Result : Prop :=
  ∀ s : State,
    (ilenLen s > s.bufBytes.val → ∃ t, exec .namedec32 s = .next t ∧ FaultsWith 0x21#8 .bounds s t) ∧
    (ilenLen s ≤ s.bufBytes.val → ilenLen s ≠ 32 → ∃ t, exec .namedec32 s = .next t ∧ FaultsWith 0x21#8 .length s t) ∧
    ∀ w : List Byte, InputIs w s → w.length = 32 →
      ((∃ b ∈ w, b.toNat > 0x7F) → ∃ t, exec .namedec32 s = .next t ∧ FaultsWith 0x21#8 .data8 s t) ∧
      ((∀ b ∈ w, b.toNat ≤ 0x7F) → Memory.wf s.obuf → ∃ t name tail, exec .namedec32 s = .next t ∧ Completes 0x21#8 s t ∧
        w.filter (fun b => decide (b ≠ 0x00#8)) = name ++ tail ∧ (∀ b ∈ tail, b ∈ whitespace) ∧
        (∀ b, name.getLast? = some b → b ∉ whitespace) ∧
        WritesOut name s t ∧ t.res = BitVec.ofNat 32 name.length ∧ t.frm = s.frm)

/-- The 32-byte name laws (43_names.md R175, which the spec derives from R171, R173, R174; the whitespace set is its own, D23):
NAMEDEC32 of NAMEENC32 of a text gives the text without its non-ASCII bytes, then without its 0x00 bytes, then without its
trailing whitespace; so a name of at most 32 codes, each 0x01 to 0x7F, not ending in whitespace, comes back as it was. -/
def Obligations.NameRoundTrip : Prop :=
  ∀ (s t u : State) (f : List Byte), InputIs f s → (f.filter (fun b => decide (b.toNat ≤ 0x7F))).length ≤ 32 →
    Memory.wf s.obuf → Memory.wf u.obuf → exec .nameenc32 s = .next t → FeedsTo t u →
    ∃ v, exec .namedec32 u = .next v ∧ Completes 0x21#8 u v ∧
      WritesOut (((f.filter (fun b => decide (b.toNat ≤ 0x7F))).filter (fun b => decide (b ≠ 0x00#8))).rdropWhile
        (fun b => decide (b ∈ whitespace))) u v ∧
      ((∀ b ∈ f, 0x01 ≤ b.toNat ∧ b.toNat ≤ 0x7F) → (∀ b, f.getLast? = some b → b ∉ whitespace) → WritesOut f u v)

/-- PACKB (43_names.md R183): the bytes of the rule's own loop, in the mode of CFG.PKMODE; E_OVERFLOW when PackedLength (R182)
exceeds BUF_BYTES; no code value faults. Mode 1 is the spec's reading of the source and the start byte its inference (D25, D26;
assumption 13). -/
def Obligations.PackbFollowsTheWrittenLoop : Prop :=
  ∀ s : State,
    (ilenLen s > s.bufBytes.val → ∃ t, exec .packb s = .next t ∧ FaultsWith 0x22#8 .bounds s t) ∧
    ∀ f : List Byte, InputIs f s →
      (packedSize f.length (pkmode s) > s.bufBytes.val →
        ∃ t, exec .packb s = .next t ∧ FaultsWith 0x22#8 .overflow s t) ∧
      (packedSize f.length (pkmode s) ≤ s.bufBytes.val → Memory.wf s.obuf →
        ∃ t, exec .packb s = .next t ∧ Completes 0x22#8 s t ∧
          WritesOut ((List.range f.length).foldl (packRound (pkmode s) f) [0x00#8]) s t ∧
          t.olen = BitVec.ofNat 32 (packedSize f.length (pkmode s)) ∧
          t.res = BitVec.ofNat 32 (packedSize f.length (pkmode s)) ∧ t.frm = s.frm)

/-- The packed bit layout, both modes (43_names.md R182): byte `j` of the output is the OR, over the codes, of what each
contributes to it: its high bits at byte `h(i)`, its low bits at byte `h(i) + 1`; and bit 7 of every byte is 0. Mode 1 is the
spec's reading of the source, the start byte its inference and UNPACKB its own (D25 to D27; assumption 13). -/
def Obligations.PackedBytesHoldTheCodesBits : Prop :=
  ∀ (s t : State) (f : List Byte), InputIs f s → packedSize f.length (pkmode s) ≤ s.bufBytes.val →
    Memory.wf s.obuf → exec .packb s = .next t → ∀ j, j < packedSize f.length (pkmode s) →
      Memory.read t.obuf j = (List.range f.length).foldl (fun x i => x ||| packPart (pkmode s) f j i) 0x00#8 ∧
        (Memory.read t.obuf j).getLsbD 7 = false

/-- The two modes give the same output for at most 7 codes (43_names.md R184, law 3). Mode 1 is the spec's reading of the source,
the start byte its inference and UNPACKB its own (D25 to D27; assumption 13). -/
def Obligations.PackModesAgreeUpToSevenCodes : Prop :=
  ∀ (s t u v : State) (f : List Byte), InputIs f s → InputIs f u → f.length ≤ 7 → pkmode s = false → pkmode u = true →
    Memory.wf s.obuf → Memory.wf u.obuf → exec .packb s = .next t → exec .packb u = .next v →
    t.olen = v.olen ∧ ∀ k, k < olenLen t → Memory.read t.obuf k = Memory.read v.obuf k

/-- UNPACKB undoes PACKB, in mode 1 for every number of codes and in mode 0 for at most 7 (43_names.md R184, laws 2 and 3): given
the count in ARG and the same mode, it gives the codes back. Mode 1 is the spec's reading of the source, the start byte its
inference and UNPACKB its own (D25 to D27; assumption 13). -/
def Obligations.UnpackbUndoesPackb : Prop :=
  ∀ (s t u : State) (f : List Byte), InputIs f s → pkmode s = true ∨ f.length ≤ 7 →
    packedSize f.length (pkmode s) ≤ s.bufBytes.val → Memory.wf s.obuf → Memory.wf u.obuf → exec .packb s = .next t →
    FeedsTo t u → pkmode u = pkmode s → u.arg = BitVec.ofNat 32 f.length →
    ∃ v, exec .unpackb u = .next v ∧ Completes 0x23#8 u v ∧ WritesOut f u v

/-- In mode 0 from 8 codes on, byte `7g` mixes two codes, so packing is not injective (43_names.md R184, law 4): the spec's own
two names pack to the same bytes. The start byte is the spec's inference (D25; assumption 13). -/
def Obligations.ModeZeroMergesCodes : Prop :=
  (∀ (s t : State) (f : List Byte) (g : Nat), InputIs f s → pkmode s = false → f.length + 1 ≤ s.bufBytes.val →
      Memory.wf s.obuf → 1 ≤ g → 7 * g < f.length → exec .packb s = .next t →
      Memory.read t.obuf (7 * g) = (f.getD (7 * g - 1) 0x00#8 &&& 0x7F#8) ||| (f.getD (7 * g) 0x00#8 >>> 1)) ∧
    ∀ s t u v : State, pkmode s = false → pkmode u = false → Memory.wf s.obuf → Memory.wf u.obuf →
      InputIs [0x61#8, 0x61#8, 0x61#8, 0x61#8, 0x61#8, 0x61#8, 0x61#8, 0x40#8] s →
      InputIs [0x61#8, 0x61#8, 0x61#8, 0x61#8, 0x61#8, 0x61#8, 0x41#8, 0x40#8] u →
      exec .packb s = .next t → exec .packb u = .next v →
      WritesOut [0x30#8, 0x58#8, 0x2C#8, 0x16#8, 0x0B#8, 0x05#8, 0x42#8, 0x61#8, 0x00#8] s t ∧
        WritesOut [0x30#8, 0x58#8, 0x2C#8, 0x16#8, 0x0B#8, 0x05#8, 0x42#8, 0x61#8, 0x00#8] u v

/-- UNPACKB (43_names.md R190): code `i` is `((B[h] << s) & 0xFF) | (B[h+1] >> (7 - s))`; E_RANGE above BUF_BYTES codes, E_LENGTH
unless the input has PackedLength (R182) bytes, E_DATA8 when a byte has bit 7 set. The decoder is the spec's own (D27; assumption 13). -/
def Obligations.UnpackbResult : Prop :=
  ∀ s : State,
    (ilenLen s > s.bufBytes.val → ∃ t, exec .unpackb s = .next t ∧ FaultsWith 0x23#8 .bounds s t) ∧
    ∀ (f : List Byte) (n : Nat), InputIs f s → n = s.arg.toNat →
      (n > s.bufBytes.val → ∃ t, exec .unpackb s = .next t ∧ FaultsWith 0x23#8 .range s t) ∧
      (n ≤ s.bufBytes.val → f.length ≠ packedSize n (pkmode s) →
        ∃ t, exec .unpackb s = .next t ∧ FaultsWith 0x23#8 .length s t) ∧
      (n ≤ s.bufBytes.val → f.length = packedSize n (pkmode s) →
        ((∃ b ∈ f, b.toNat > 0x7F) → ∃ t, exec .unpackb s = .next t ∧ FaultsWith 0x23#8 .data8 s t) ∧
        ((∀ b ∈ f, b.toNat ≤ 0x7F) → Memory.wf s.obuf → ∃ t out, exec .unpackb s = .next t ∧ Completes 0x23#8 s t ∧
          WritesOut out s t ∧ out.length = n ∧ t.res = BitVec.ofNat 32 n ∧ t.frm = s.frm ∧
          ∀ i, i < n →
            (out.getD i 0x00#8).toNat =
              (((f.getD (if pkmode s then i + i / 7 else i) 0x00#8).toNat <<< (i % 7 + 1)) &&& 0xFF) |||
                ((f.getD ((if pkmode s then i + i / 7 else i) + 1) 0x00#8).toNat >>> (7 - (i % 7 + 1)))))
end

