-- ==== Sys2Proof/Laws/Flags.lean ====
section
/-! SUPPORT. What each field of a packed register is: STATUS, FRM, FRAMEDEC's flags, and the lengths. -/

namespace Sys2Proof.Machine

theorem statusDone_packStatus (d e f a : Bool) (c : Byte) : statusDone (packStatus d e f a c) = d := by
  simp only [statusDone, packStatus, BitVec.getLsbD_append]; simp

theorem statusErr_packStatus (d e f a : Bool) (c : Byte) : statusErr (packStatus d e f a c) = e := by
  simp only [statusErr, packStatus, BitVec.getLsbD_append]; simp

theorem statusFaultSeen_packStatus (d e f a : Bool) (c : Byte) : statusFaultSeen (packStatus d e f a c) = f := by
  simp only [statusFaultSeen, packStatus, BitVec.getLsbD_append]; simp

theorem statusAccErr_packStatus (d e f a : Bool) (c : Byte) : statusAccErr (packStatus d e f a c) = a := by
  simp only [statusAccErr, packStatus, BitVec.getLsbD_append]; simp

theorem statusEcode_packStatus (d e f a : Bool) (c : Byte) : statusEcode (packStatus d e f a c) = c := by
  apply BitVec.eq_of_getLsbD_eq
  intro i hi
  have h1 : ¬ 8 + i < 1 := by omega
  have h2 : ¬ 8 + i - 1 < 1 := by omega
  have h3 : ¬ 8 + i - 1 - 1 < 1 := by omega
  have h4 : ¬ 8 + i - 1 - 1 - 1 < 1 := by omega
  have h5 : ¬ 8 + i - 1 - 1 - 1 - 1 < 4 := by omega
  have h6 : 8 + i - 1 - 1 - 1 - 1 - 4 = i := by omega
  simp only [statusEcode, packStatus, BitVec.getLsbD_extractLsb', BitVec.getLsbD_append, hi, h1, h2, h3, h4, h5, h6,
    decide_true, Bool.true_and, if_true, if_false]

/-- A packed STATUS has its reserved bits 0. -/
theorem packStatus_reserved (d e f a : Bool) (c : Byte) :
    packStatus d e f a c &&& definedBits .status = packStatus d e f a c := by
  have h : ∀ c : Byte, packStatus d e f a c &&& definedBits .status = packStatus d e f a c := by
    revert d e f a; decide
  exact h c

theorem frmModel_packFrm (m o st e : Byte) : frmModel (packFrm m o st e) = m := by
  apply BitVec.eq_of_getLsbD_eq
  intro i hi
  simp only [frmModel, packFrm, BitVec.getLsbD_extractLsb', BitVec.getLsbD_append, hi, decide_true, Bool.true_and,
    Nat.zero_add, if_true]

theorem frmOpcode_packFrm (m o st e : Byte) : frmOpcode (packFrm m o st e) = o := by
  apply BitVec.eq_of_getLsbD_eq
  intro i hi
  have h1 : ¬ 8 + i < 8 := by omega
  have h2 : 8 + i - 8 = i := by omega
  simp only [frmOpcode, packFrm, BitVec.getLsbD_extractLsb', BitVec.getLsbD_append, hi, h1, h2, decide_true,
    Bool.true_and, if_true, if_false]

theorem frmCkStored_packFrm (m o st e : Byte) : frmCkStored (packFrm m o st e) = st := by
  apply BitVec.eq_of_getLsbD_eq
  intro i hi
  have h1 : ¬ 16 + i < 8 := by omega
  have h2 : ¬ 16 + i - 8 < 8 := by omega
  have h3 : 16 + i - 8 - 8 = i := by omega
  simp only [frmCkStored, packFrm, BitVec.getLsbD_extractLsb', BitVec.getLsbD_append, hi, h1, h2, h3, decide_true,
    Bool.true_and, if_true, if_false]

theorem frmCkCalc_packFrm (m o st e : Byte) : frmCkCalc (packFrm m o st e) = e.setWidth 7 := by
  apply BitVec.eq_of_getLsbD_eq
  intro i hi
  have h1 : ¬ 24 + i < 8 := by omega
  have h2 : ¬ 24 + i - 8 < 8 := by omega
  have h3 : ¬ 24 + i - 8 - 8 < 8 := by omega
  have h4 : 24 + i - 8 - 8 - 8 = i := by omega
  simp only [frmCkCalc, packFrm, BitVec.getLsbD_extractLsb', BitVec.getLsbD_append, BitVec.getLsbD_setWidth, hi, h1, h2,
    h3, h4, decide_true, Bool.true_and, if_false]

/-- A length below 65536 is its own OLEN value. -/
theorem lengthWord_eq {n : Nat} (h : n < 65536) : lengthWord n = BitVec.ofNat 32 n := by
  apply BitVec.eq_of_toNat_eq
  simp only [lengthWord, BitVec.toNat_setWidth, BitVec.toNat_ofNat]
  omega

theorem toNat_lengthWord {n : Nat} (h : n < 65536) : (lengthWord n).toNat = n := by
  simp only [lengthWord, BitVec.toNat_setWidth, BitVec.toNat_ofNat]
  omega

/-- OLEN.LEN of a packed length. -/
theorem extract_lengthWord {n : Nat} (h : n < 65536) : ((lengthWord n).extractLsb' 0 16).toNat = n := by
  simp only [BitVec.extractLsb'_toNat, toNat_lengthWord h, Nat.shiftRight_zero]
  omega

/-- A packed length has its reserved bits 0. -/
theorem lengthWord_reserved (n : Nat) : lengthWord n &&& 0x0000FFFF#32 = lengthWord n := by
  apply BitVec.eq_of_toNat_eq
  simp only [lengthWord, BitVec.toNat_and, BitVec.toNat_setWidth, BitVec.toNat_ofNat]
  rw [show 65535 % 2 ^ 32 = 2 ^ 16 - 1 by norm_num, Nat.and_two_pow_sub_one_eq_mod]
  omega

/-- A byte is 7-bit-safe exactly when its bit 7 is 0 (00_scope.md R8). -/
theorem isSafe7_eq (b : Byte) : isSafe7 b = !b.getLsbD 7 := by
  revert b; decide

end Sys2Proof.Machine
end

