-- ==== Sys2Proof/Laws/Memory.lean ====
section
/-! SUPPORT. What the buffer operations do: a read after a write gives the byte written, a write leaves every other byte alone,
every operation keeps the canonical form, and two canonical buffers that read alike are equal. -/

namespace Sys2Proof.Machine

@[simp] theorem Memory.read_nil (a : Nat) : Memory.read [] a = 0x00#8 := rfl

/-- An index below every listed one reads as unlisted. -/
theorem Memory.read_of_lt {m : Memory} {a : Nat} (h : ∀ c ∈ m, a < c.1) : Memory.read m a = 0x00#8 := by
  induction m with
  | nil => rfl
  | cons c m ih =>
    have hc : a < c.1 := h c (by simp)
    have hne : ¬ a = c.1 := by omega
    simp only [Memory.read, hne, if_false]
    exact ih fun d hd => h d (by simp [hd])

theorem Memory.wf_nil : Memory.wf [] := by simp [Memory.wf]

theorem Memory.wf_cons {c : Host.Cell} {m : Memory} :
    Memory.wf (c :: m) ↔ (∀ d ∈ m, c.1 < d.1) ∧ c.2 ≠ unlistedByte ∧ Memory.wf m := by
  simp only [Memory.wf, List.pairwise_cons, List.mem_cons, forall_eq_or_imp]
  tauto

/-- A write to a canonical buffer gives the byte written at its index and leaves every other byte alone. -/
theorem Memory.read_write {m : Memory} (hm : Memory.wf m) (a : Nat) (b : Byte) (k : Nat) :
    Memory.read (Memory.write m a b) k = if k = a then b else Memory.read m k := by
  induction m with
  | nil =>
    by_cases hb : b = unlistedByte
    · subst hb; simp [Memory.write, Memory.read, unlistedByte]
    · simp [Memory.write, Memory.read, hb]
  | cons c m ih =>
    obtain ⟨i, v⟩ := c
    obtain ⟨hlt, -, hm'⟩ := Memory.wf_cons.1 hm
    have hbelow : ∀ j, j ≤ i → Memory.read m j = 0x00#8 := fun j hj =>
      Memory.read_of_lt fun d hd => Nat.lt_of_le_of_lt hj (hlt d hd)
    rcases Nat.lt_trichotomy a i with hai | hai | hai
    · have hm0 := hbelow a (by omega)
      by_cases hb : b = unlistedByte
      · simp only [Memory.write, hai, if_true, hb, Memory.read]
        by_cases hk : k = a
        · have hne : ¬ a = i := by omega
          simp only [hk, hne, if_false, if_true, hm0]; rfl
        · simp only [hk, if_false]
      · simp only [Memory.write, hai, if_true, hb, if_false, Memory.read]
    · subst hai
      have hm0 := hbelow a (by omega)
      by_cases hb : b = unlistedByte
      · simp only [Memory.write, Nat.lt_irrefl, if_false, if_true, hb, Memory.read]
        by_cases hk : k = a
        · simp only [hk, if_true, hm0]; rfl
        · simp only [hk, if_false]
      · simp only [Memory.write, Nat.lt_irrefl, if_false, if_true, hb, Memory.read]
        by_cases hk : k = a <;> simp [hk]
    · have h1 : ¬ a < i := by omega
      have h2 : ¬ a = i := by omega
      simp only [Memory.write, h1, h2, if_false, Memory.read, ih hm']
      by_cases hk : k = i
      · have hka : ¬ k = a := by omega
        simp [hk, show ¬ i = a by omega]
      · simp [hk]

/-- Every index a write lists was listed before or is the one written. -/
theorem Memory.mem_write {m : Memory} {a : Nat} {b : Byte} {c : Host.Cell} (h : c ∈ Memory.write m a b) :
    c ∈ m ∨ (c = (a, b) ∧ b ≠ unlistedByte) := by
  induction m with
  | nil =>
    by_cases hb : b = unlistedByte
    · simp [Memory.write, hb] at h
    · simp [Memory.write, hb] at h
      exact .inr ⟨h, hb⟩
  | cons d m ih =>
    obtain ⟨i, v⟩ := d
    simp only [Memory.write] at h
    split at h
    · split at h
      · exact .inl h
      · rename_i hb
        rcases List.mem_cons.1 h with h | h
        · exact .inr ⟨h, hb⟩
        · exact .inl h
    · split at h
      · split at h
        · exact .inl (by simp [h])
        · rename_i hb
          rcases List.mem_cons.1 h with h | h
          · exact .inr ⟨h, hb⟩
          · exact .inl (by simp [h])
      · rcases List.mem_cons.1 h with h | h
        · exact .inl (by simp [h])
        · rcases ih h with h | h
          · exact .inl (by simp [h])
          · exact .inr h

/-- A write keeps the canonical form. -/
theorem Memory.wf_write {m : Memory} (hm : Memory.wf m) (a : Nat) (b : Byte) : Memory.wf (Memory.write m a b) := by
  induction m with
  | nil =>
    by_cases hb : b = unlistedByte
    · simp [Memory.write, Memory.wf, hb]
    · simp [Memory.write, Memory.wf, hb]
  | cons d m ih =>
    obtain ⟨i, v⟩ := d
    obtain ⟨hlt, hv, hm'⟩ := Memory.wf_cons.1 hm
    simp only [Memory.write]
    split
    · rename_i hai
      split
      · exact hm
      · rename_i hb
        refine Memory.wf_cons.2 ⟨fun c hc => ?_, hb, hm⟩
        rcases List.mem_cons.1 hc with rfl | hc
        · exact hai
        · exact Nat.lt_trans hai (hlt c hc)
    · split
      · rename_i hai
        subst hai
        split
        · exact hm'
        · rename_i hb
          exact Memory.wf_cons.2 ⟨hlt, hb, hm'⟩
      · refine Memory.wf_cons.2 ⟨fun c hc => ?_, hv, ih hm'⟩
        rcases Memory.mem_write hc with hc | ⟨rfl, -⟩
        · exact hlt c hc
        · show i < a
          omega

/-- A write below `n` lists nothing at or above `n`. -/
theorem Memory.below_write {m : Memory} {n a : Nat} (hm : Memory.below m n) (ha : a < n) (b : Byte) :
    Memory.below (Memory.write m a b) n := by
  intro c hc
  rcases Memory.mem_write hc with hc | ⟨rfl, -⟩
  · exact hm c hc
  · exact ha

/-- Storing a byte sequence keeps the canonical form. -/
theorem Memory.wf_writeBytes {m : Memory} (hm : Memory.wf m) (a : Nat) (bs : List Byte) :
    Memory.wf (Memory.writeBytes m a bs) := by
  induction bs generalizing m a with
  | nil => exact hm
  | cons b bs ih => exact ih (Memory.wf_write hm a b) (a + 1)

/-- Storing a byte sequence that ends at or below `n` lists nothing at or above `n`. -/
theorem Memory.below_writeBytes {m : Memory} {n a : Nat} {bs : List Byte} (hm : Memory.below m n)
    (h : a + bs.length ≤ n) : Memory.below (Memory.writeBytes m a bs) n := by
  induction bs generalizing m a with
  | nil => exact hm
  | cons b bs ih =>
    simp only [List.length_cons] at h
    exact ih (Memory.below_write hm (by omega) b) (by omega)

/-- Storing a byte sequence gives its bytes at its indices and leaves every other byte alone. -/
theorem Memory.read_writeBytes {m : Memory} (hm : Memory.wf m) (a : Nat) (bs : List Byte) (k : Nat) :
    Memory.read (Memory.writeBytes m a bs) k =
      if a ≤ k ∧ k < a + bs.length then bs.getD (k - a) 0x00#8 else Memory.read m k := by
  induction bs generalizing m a with
  | nil =>
    simp [Memory.writeBytes]
  | cons b bs ih =>
    simp only [Memory.writeBytes, ih (Memory.wf_write hm a b), Memory.read_write hm, List.length_cons]
    rcases Nat.lt_trichotomy k a with h | h | h
    · have h1 : ¬ (a + 1 ≤ k ∧ k < a + 1 + bs.length) := by omega
      have h2 : ¬ (a ≤ k ∧ k < a + (bs.length + 1)) := by omega
      have h3 : ¬ k = a := by omega
      simp only [h1, h2, h3, if_false]
    · subst h
      simp
    · obtain ⟨j, rfl⟩ : ∃ j, k = a + 1 + j := ⟨k - (a + 1), by omega⟩
      have h3 : ¬ a + 1 + j = a := by omega
      have e1 : a + 1 + j - (a + 1) = j := by omega
      have e2 : a + 1 + j - a = j + 1 := by omega
      simp only [h3, if_false, e1, e2, List.getD_cons_succ]
      by_cases hj : j < bs.length
      · rw [if_pos ⟨by omega, by omega⟩, if_pos ⟨by omega, by omega⟩]
      · rw [if_neg (by omega), if_neg (by omega)]

/-- Two canonical buffers that read alike are equal. -/
theorem Memory.ext_read {m m' : Memory} (hm : Memory.wf m) (hm' : Memory.wf m')
    (h : ∀ k, Memory.read m k = Memory.read m' k) : m = m' := by
  induction m generalizing m' with
  | nil =>
    cases m' with
    | nil => rfl
    | cons d m' =>
      have := h d.1
      simp only [Memory.read, if_true] at this
      exact absurd this.symm (Memory.wf_cons.1 hm').2.1
  | cons c m ih =>
    obtain ⟨hlt, hv, hw⟩ := Memory.wf_cons.1 hm
    cases m' with
    | nil =>
      have := h c.1
      simp only [Memory.read, if_true] at this
      exact absurd this hv
    | cons d m' =>
      obtain ⟨hlt', hv', hw'⟩ := Memory.wf_cons.1 hm'
      have hkey : c.1 = d.1 := by
        rcases Nat.lt_trichotomy c.1 d.1 with hcd | hcd | hcd
        · have := h c.1
          rw [show Memory.read (d :: m') c.1 = 0x00#8 from
            Memory.read_of_lt fun e he => by
              rcases List.mem_cons.1 he with rfl | he
              · exact hcd
              · exact Nat.lt_trans hcd (hlt' e he)] at this
          simp only [Memory.read, if_true] at this
          exact absurd this hv
        · exact hcd
        · have := h d.1
          rw [show Memory.read (c :: m) d.1 = 0x00#8 from
            Memory.read_of_lt fun e he => by
              rcases List.mem_cons.1 he with rfl | he
              · exact hcd
              · exact Nat.lt_trans hcd (hlt e he)] at this
          simp only [Memory.read, if_true] at this
          exact absurd this.symm hv'
      have hval : c.2 = d.2 := by
        have := h c.1
        simpa [Memory.read, hkey] using this
      have hrest : m = m' := by
        refine ih hw hw' fun k => ?_
        by_cases hk : k = c.1
        · subst hk
          rw [Memory.read_of_lt fun e he => hlt e he, Memory.read_of_lt fun e he => hkey ▸ hlt' e he]
        · have := h k
          simpa only [Memory.read, hk, hkey ▸ hk, if_false] using this
      rw [hrest, Prod.ext hkey hval]

@[simp] theorem Memory.readBytes_length (m : Memory) (a n : Nat) : (Memory.readBytes m a n).length = n := by
  simp [Memory.readBytes]

theorem Memory.readBytes_getElem (m : Memory) (a n k : Nat) (h : k < (Memory.readBytes m a n).length) :
    (Memory.readBytes m a n)[k] = Memory.read m (a + k) := by
  simp [Memory.readBytes]

/-- The byte at an index below the length is the buffer's byte. -/
theorem Memory.readBytes_getD {m : Memory} {a n k : Nat} (h : k < n) :
    (Memory.readBytes m a n).getD k 0x00#8 = Memory.read m (a + k) := by
  simp [Memory.readBytes, List.getD_eq_getElem?_getD, h]

end Sys2Proof.Machine
end

