-- ==== Sys2Proof/Laws/State.lean ====
section
/-! SUPPORT. One lemma per field per update of the state, each true by rfl, so that no later proof unfolds a record update. -/

namespace Sys2Proof.Machine

@[simp] theorem storeCode_cmd (code : Byte) (s : State) :
    (storeCode code s).cmd = code.setWidth 32 := rfl
@[simp] theorem storeCode_status (code : Byte) (s : State) :
    (storeCode code s).status = s.status := rfl
@[simp] theorem storeCode_arg (code : Byte) (s : State) :
    (storeCode code s).arg = s.arg := rfl
@[simp] theorem storeCode_res (code : Byte) (s : State) :
    (storeCode code s).res = s.res := rfl
@[simp] theorem storeCode_cfg (code : Byte) (s : State) :
    (storeCode code s).cfg = s.cfg := rfl
@[simp] theorem storeCode_ilen (code : Byte) (s : State) :
    (storeCode code s).ilen = s.ilen := rfl
@[simp] theorem storeCode_olen (code : Byte) (s : State) :
    (storeCode code s).olen = s.olen := rfl
@[simp] theorem storeCode_frm (code : Byte) (s : State) :
    (storeCode code s).frm = s.frm := rfl
@[simp] theorem storeCode_ibuf (code : Byte) (s : State) :
    (storeCode code s).ibuf = s.ibuf := rfl
@[simp] theorem storeCode_obuf (code : Byte) (s : State) :
    (storeCode code s).obuf = s.obuf := rfl
@[simp] theorem storeCode_bufBytes (code : Byte) (s : State) :
    (storeCode code s).bufBytes = s.bufBytes := rfl
@[simp] theorem storeCode_pending (code : Byte) (s : State) :
    (storeCode code s).pending = s.pending := rfl
@[simp] theorem storeCode_resetLine (code : Byte) (s : State) :
    (storeCode code s).resetLine = s.resetLine := rfl
@[simp] theorem storeCode_returned (code : Byte) (s : State) :
    (storeCode code s).returned = s.returned := rfl

@[simp] theorem faultEntry_cmd (f : CmdFault) (s : State) :
    (faultEntry f s).cmd = s.cmd := rfl
@[simp] theorem faultEntry_status (f : CmdFault) (s : State) :
    (faultEntry f s).status = packStatus false true (statusFaultSeen s.status || faultClass1 f) (statusAccErr s.status) (faultCode f) := rfl
@[simp] theorem faultEntry_arg (f : CmdFault) (s : State) :
    (faultEntry f s).arg = s.arg := rfl
@[simp] theorem faultEntry_res (f : CmdFault) (s : State) :
    (faultEntry f s).res = s.res := rfl
@[simp] theorem faultEntry_cfg (f : CmdFault) (s : State) :
    (faultEntry f s).cfg = s.cfg := rfl
@[simp] theorem faultEntry_ilen (f : CmdFault) (s : State) :
    (faultEntry f s).ilen = s.ilen := rfl
@[simp] theorem faultEntry_olen (f : CmdFault) (s : State) :
    (faultEntry f s).olen = s.olen := rfl
@[simp] theorem faultEntry_frm (f : CmdFault) (s : State) :
    (faultEntry f s).frm = s.frm := rfl
@[simp] theorem faultEntry_ibuf (f : CmdFault) (s : State) :
    (faultEntry f s).ibuf = s.ibuf := rfl
@[simp] theorem faultEntry_obuf (f : CmdFault) (s : State) :
    (faultEntry f s).obuf = s.obuf := rfl
@[simp] theorem faultEntry_bufBytes (f : CmdFault) (s : State) :
    (faultEntry f s).bufBytes = s.bufBytes := rfl
@[simp] theorem faultEntry_pending (f : CmdFault) (s : State) :
    (faultEntry f s).pending = s.pending := rfl
@[simp] theorem faultEntry_resetLine (f : CmdFault) (s : State) :
    (faultEntry f s).resetLine = s.resetLine := rfl
@[simp] theorem faultEntry_returned (f : CmdFault) (s : State) :
    (faultEntry f s).returned = s.returned := rfl

@[simp] theorem complete_cmd (s : State) :
    (complete s).cmd = s.cmd := rfl
@[simp] theorem complete_status (s : State) :
    (complete s).status = packStatus true false (statusFaultSeen s.status) (statusAccErr s.status) 0x00#8 := rfl
@[simp] theorem complete_arg (s : State) :
    (complete s).arg = s.arg := rfl
@[simp] theorem complete_res (s : State) :
    (complete s).res = s.res := rfl
@[simp] theorem complete_cfg (s : State) :
    (complete s).cfg = s.cfg := rfl
@[simp] theorem complete_ilen (s : State) :
    (complete s).ilen = s.ilen := rfl
@[simp] theorem complete_olen (s : State) :
    (complete s).olen = s.olen := rfl
@[simp] theorem complete_frm (s : State) :
    (complete s).frm = s.frm := rfl
@[simp] theorem complete_ibuf (s : State) :
    (complete s).ibuf = s.ibuf := rfl
@[simp] theorem complete_obuf (s : State) :
    (complete s).obuf = s.obuf := rfl
@[simp] theorem complete_bufBytes (s : State) :
    (complete s).bufBytes = s.bufBytes := rfl
@[simp] theorem complete_pending (s : State) :
    (complete s).pending = s.pending := rfl
@[simp] theorem complete_resetLine (s : State) :
    (complete s).resetLine = s.resetLine := rfl
@[simp] theorem complete_returned (s : State) :
    (complete s).returned = s.returned := rfl

@[simp] theorem accessErrorEntry_cmd (r : Response) (s : State) :
    (accessErrorEntry r s).cmd = s.cmd := rfl
@[simp] theorem accessErrorEntry_status (r : Response) (s : State) :
    (accessErrorEntry r s).status = s.status ||| 0x00000008#32 := rfl
@[simp] theorem accessErrorEntry_arg (r : Response) (s : State) :
    (accessErrorEntry r s).arg = s.arg := rfl
@[simp] theorem accessErrorEntry_res (r : Response) (s : State) :
    (accessErrorEntry r s).res = s.res := rfl
@[simp] theorem accessErrorEntry_cfg (r : Response) (s : State) :
    (accessErrorEntry r s).cfg = s.cfg := rfl
@[simp] theorem accessErrorEntry_ilen (r : Response) (s : State) :
    (accessErrorEntry r s).ilen = s.ilen := rfl
@[simp] theorem accessErrorEntry_olen (r : Response) (s : State) :
    (accessErrorEntry r s).olen = s.olen := rfl
@[simp] theorem accessErrorEntry_frm (r : Response) (s : State) :
    (accessErrorEntry r s).frm = s.frm := rfl
@[simp] theorem accessErrorEntry_ibuf (r : Response) (s : State) :
    (accessErrorEntry r s).ibuf = s.ibuf := rfl
@[simp] theorem accessErrorEntry_obuf (r : Response) (s : State) :
    (accessErrorEntry r s).obuf = s.obuf := rfl
@[simp] theorem accessErrorEntry_bufBytes (r : Response) (s : State) :
    (accessErrorEntry r s).bufBytes = s.bufBytes := rfl
@[simp] theorem accessErrorEntry_pending (r : Response) (s : State) :
    (accessErrorEntry r s).pending = s.pending := rfl
@[simp] theorem accessErrorEntry_resetLine (r : Response) (s : State) :
    (accessErrorEntry r s).resetLine = s.resetLine := rfl
@[simp] theorem accessErrorEntry_returned (r : Response) (s : State) :
    (accessErrorEntry r s).returned = s.returned ++ [r] := rfl

@[simp] theorem giveBack_cmd (r : Response) (s : State) :
    (giveBack r s).cmd = s.cmd := rfl
@[simp] theorem giveBack_status (r : Response) (s : State) :
    (giveBack r s).status = s.status := rfl
@[simp] theorem giveBack_arg (r : Response) (s : State) :
    (giveBack r s).arg = s.arg := rfl
@[simp] theorem giveBack_res (r : Response) (s : State) :
    (giveBack r s).res = s.res := rfl
@[simp] theorem giveBack_cfg (r : Response) (s : State) :
    (giveBack r s).cfg = s.cfg := rfl
@[simp] theorem giveBack_ilen (r : Response) (s : State) :
    (giveBack r s).ilen = s.ilen := rfl
@[simp] theorem giveBack_olen (r : Response) (s : State) :
    (giveBack r s).olen = s.olen := rfl
@[simp] theorem giveBack_frm (r : Response) (s : State) :
    (giveBack r s).frm = s.frm := rfl
@[simp] theorem giveBack_ibuf (r : Response) (s : State) :
    (giveBack r s).ibuf = s.ibuf := rfl
@[simp] theorem giveBack_obuf (r : Response) (s : State) :
    (giveBack r s).obuf = s.obuf := rfl
@[simp] theorem giveBack_bufBytes (r : Response) (s : State) :
    (giveBack r s).bufBytes = s.bufBytes := rfl
@[simp] theorem giveBack_pending (r : Response) (s : State) :
    (giveBack r s).pending = s.pending := rfl
@[simp] theorem giveBack_resetLine (r : Response) (s : State) :
    (giveBack r s).resetLine = s.resetLine := rfl
@[simp] theorem giveBack_returned (r : Response) (s : State) :
    (giveBack r s).returned = s.returned ++ [r] := rfl

@[simp] theorem perform_cmd (w : Writes) (s : State) :
    (perform w s).cmd = s.cmd := rfl
@[simp] theorem perform_status (w : Writes) (s : State) :
    (perform w s).status = s.status := rfl
@[simp] theorem perform_arg (w : Writes) (s : State) :
    (perform w s).arg = s.arg := rfl
@[simp] theorem perform_res (w : Writes) (s : State) :
    (perform w s).res = w.res.getD s.res := rfl
@[simp] theorem perform_cfg (w : Writes) (s : State) :
    (perform w s).cfg = s.cfg := rfl
@[simp] theorem perform_ilen (w : Writes) (s : State) :
    (perform w s).ilen = s.ilen := rfl
@[simp] theorem perform_olen (w : Writes) (s : State) :
    (perform w s).olen = match w.out with
      | none => s.olen
      | some out => lengthWord out.length := rfl
@[simp] theorem perform_frm (w : Writes) (s : State) :
    (perform w s).frm = w.frm.getD s.frm := rfl
@[simp] theorem perform_ibuf (w : Writes) (s : State) :
    (perform w s).ibuf = s.ibuf := rfl
@[simp] theorem perform_obuf (w : Writes) (s : State) :
    (perform w s).obuf = match w.out with
      | none => s.obuf
      | some out => Memory.writeBytes s.obuf 0 out := rfl
@[simp] theorem perform_bufBytes (w : Writes) (s : State) :
    (perform w s).bufBytes = s.bufBytes := rfl
@[simp] theorem perform_pending (w : Writes) (s : State) :
    (perform w s).pending = s.pending := rfl
@[simp] theorem perform_resetLine (w : Writes) (s : State) :
    (perform w s).resetLine = s.resetLine := rfl
@[simp] theorem perform_returned (w : Writes) (s : State) :
    (perform w s).returned = s.returned := rfl

@[simp] theorem assertReset_cmd (s : State) :
    (assertReset s).cmd = 0#32 := rfl
@[simp] theorem assertReset_status (s : State) :
    (assertReset s).status = 0#32 := rfl
@[simp] theorem assertReset_arg (s : State) :
    (assertReset s).arg = 0#32 := rfl
@[simp] theorem assertReset_res (s : State) :
    (assertReset s).res = 0#32 := rfl
@[simp] theorem assertReset_cfg (s : State) :
    (assertReset s).cfg = 0#32 := rfl
@[simp] theorem assertReset_ilen (s : State) :
    (assertReset s).ilen = 0#32 := rfl
@[simp] theorem assertReset_olen (s : State) :
    (assertReset s).olen = 0#32 := rfl
@[simp] theorem assertReset_frm (s : State) :
    (assertReset s).frm = 0#32 := rfl
@[simp] theorem assertReset_ibuf (s : State) :
    (assertReset s).ibuf = [] := rfl
@[simp] theorem assertReset_obuf (s : State) :
    (assertReset s).obuf = [] := rfl
@[simp] theorem assertReset_bufBytes (s : State) :
    (assertReset s).bufBytes = s.bufBytes := rfl
@[simp] theorem assertReset_pending (s : State) :
    (assertReset s).pending = s.pending := rfl
@[simp] theorem assertReset_resetLine (s : State) :
    (assertReset s).resetLine = true := rfl
@[simp] theorem assertReset_returned (s : State) :
    (assertReset s).returned = s.returned := rfl

@[simp] theorem releaseReset_cmd (s : State) :
    (releaseReset s).cmd = s.cmd := rfl
@[simp] theorem releaseReset_status (s : State) :
    (releaseReset s).status = s.status := rfl
@[simp] theorem releaseReset_arg (s : State) :
    (releaseReset s).arg = s.arg := rfl
@[simp] theorem releaseReset_res (s : State) :
    (releaseReset s).res = s.res := rfl
@[simp] theorem releaseReset_cfg (s : State) :
    (releaseReset s).cfg = s.cfg := rfl
@[simp] theorem releaseReset_ilen (s : State) :
    (releaseReset s).ilen = s.ilen := rfl
@[simp] theorem releaseReset_olen (s : State) :
    (releaseReset s).olen = s.olen := rfl
@[simp] theorem releaseReset_frm (s : State) :
    (releaseReset s).frm = s.frm := rfl
@[simp] theorem releaseReset_ibuf (s : State) :
    (releaseReset s).ibuf = s.ibuf := rfl
@[simp] theorem releaseReset_obuf (s : State) :
    (releaseReset s).obuf = s.obuf := rfl
@[simp] theorem releaseReset_bufBytes (s : State) :
    (releaseReset s).bufBytes = s.bufBytes := rfl
@[simp] theorem releaseReset_pending (s : State) :
    (releaseReset s).pending = s.pending := rfl
@[simp] theorem releaseReset_resetLine (s : State) :
    (releaseReset s).resetLine = false := rfl
@[simp] theorem releaseReset_returned (s : State) :
    (releaseReset s).returned = s.returned := rfl

@[simp] theorem takeEvent_cmd (s : State) :
    (takeEvent s).cmd = s.cmd := rfl
@[simp] theorem takeEvent_status (s : State) :
    (takeEvent s).status = s.status := rfl
@[simp] theorem takeEvent_arg (s : State) :
    (takeEvent s).arg = s.arg := rfl
@[simp] theorem takeEvent_res (s : State) :
    (takeEvent s).res = s.res := rfl
@[simp] theorem takeEvent_cfg (s : State) :
    (takeEvent s).cfg = s.cfg := rfl
@[simp] theorem takeEvent_ilen (s : State) :
    (takeEvent s).ilen = s.ilen := rfl
@[simp] theorem takeEvent_olen (s : State) :
    (takeEvent s).olen = s.olen := rfl
@[simp] theorem takeEvent_frm (s : State) :
    (takeEvent s).frm = s.frm := rfl
@[simp] theorem takeEvent_ibuf (s : State) :
    (takeEvent s).ibuf = s.ibuf := rfl
@[simp] theorem takeEvent_obuf (s : State) :
    (takeEvent s).obuf = s.obuf := rfl
@[simp] theorem takeEvent_bufBytes (s : State) :
    (takeEvent s).bufBytes = s.bufBytes := rfl
@[simp] theorem takeEvent_pending (s : State) :
    (takeEvent s).pending = s.pending.tail := rfl
@[simp] theorem takeEvent_resetLine (s : State) :
    (takeEvent s).resetLine = s.resetLine := rfl
@[simp] theorem takeEvent_returned (s : State) :
    (takeEvent s).returned = s.returned := rfl

@[simp] theorem placeAccess_cmd (x : HostAccess) (s : State) :
    (placeAccess x s).cmd = s.cmd := rfl
@[simp] theorem placeAccess_status (x : HostAccess) (s : State) :
    (placeAccess x s).status = s.status := rfl
@[simp] theorem placeAccess_arg (x : HostAccess) (s : State) :
    (placeAccess x s).arg = s.arg := rfl
@[simp] theorem placeAccess_res (x : HostAccess) (s : State) :
    (placeAccess x s).res = s.res := rfl
@[simp] theorem placeAccess_cfg (x : HostAccess) (s : State) :
    (placeAccess x s).cfg = s.cfg := rfl
@[simp] theorem placeAccess_ilen (x : HostAccess) (s : State) :
    (placeAccess x s).ilen = s.ilen := rfl
@[simp] theorem placeAccess_olen (x : HostAccess) (s : State) :
    (placeAccess x s).olen = s.olen := rfl
@[simp] theorem placeAccess_frm (x : HostAccess) (s : State) :
    (placeAccess x s).frm = s.frm := rfl
@[simp] theorem placeAccess_ibuf (x : HostAccess) (s : State) :
    (placeAccess x s).ibuf = s.ibuf := rfl
@[simp] theorem placeAccess_obuf (x : HostAccess) (s : State) :
    (placeAccess x s).obuf = s.obuf := rfl
@[simp] theorem placeAccess_bufBytes (x : HostAccess) (s : State) :
    (placeAccess x s).bufBytes = s.bufBytes := rfl
@[simp] theorem placeAccess_pending (x : HostAccess) (s : State) :
    (placeAccess x s).pending = .access x :: s.pending := rfl
@[simp] theorem placeAccess_resetLine (x : HostAccess) (s : State) :
    (placeAccess x s).resetLine = false := rfl
@[simp] theorem placeAccess_returned (x : HostAccess) (s : State) :
    (placeAccess x s).returned = s.returned := rfl

@[simp] theorem writeReg_cmd (v : Word) (s : State) :
    writeReg .cmd v s = { s with cmd := v &&& definedBits .cmd } := rfl
@[simp] theorem writeReg_arg (v : Word) (s : State) :
    writeReg .arg v s = { s with arg := v &&& definedBits .arg } := rfl
@[simp] theorem writeReg_cfg (v : Word) (s : State) :
    writeReg .cfg v s = { s with cfg := v &&& definedBits .cfg } := rfl
@[simp] theorem writeReg_ilen (v : Word) (s : State) :
    writeReg .ilen v s = { s with ilen := v &&& definedBits .ilen } := rfl
@[simp] theorem writeReg_status (v : Word) (s : State) : writeReg .status v s = s := rfl
@[simp] theorem writeReg_res (v : Word) (s : State) : writeReg .res v s = s := rfl
@[simp] theorem writeReg_olen (v : Word) (s : State) : writeReg .olen v s = s := rfl
@[simp] theorem writeReg_frm (v : Word) (s : State) : writeReg .frm v s = s := rfl

end Sys2Proof.Machine
end

