-- ==== Sys2Proof/Laws/Ops.lean ====
section
/-! SUPPORT. What each shared operation can do, said once: taking a command fault, completing, performing a command's writes and
running a command. -/

namespace Sys2Proof.Machine

theorem readReg_status_packStatus {s : State} {d e f a : Bool} {c : Byte} (h : s.status = packStatus d e f a c) :
    readReg .status s = s.status := by
  simp only [readReg, rawReg, h, packStatus_reserved]

/-- Taking a command fault after storing the code leaves what the spec says a faulting command leaves. -/
theorem faultsWith_faultEntry (code : Byte) (f : CmdFault) (s : State) :
    FaultsWith code f s (faultEntry f (storeCode code s)) := by
  refine ⟨rfl, ?_, ?_, ?_, ?_, ?_, readReg_status_packStatus rfl, ⟨rfl, rfl, rfl, rfl, rfl, rfl, rfl, rfl⟩, ⟨rfl, rfl, rfl, rfl⟩⟩
  · exact statusDone_packStatus ..
  · exact statusErr_packStatus ..
  · exact statusEcode_packStatus ..
  · exact statusFaultSeen_packStatus ..
  · exact statusAccErr_packStatus ..

/-- Completing after performing a command's writes leaves what the spec says a completed command leaves. -/
theorem completes_perform (code : Byte) (w : Writes) (s : State) :
    Completes code s (complete (perform w (storeCode code s))) := by
  refine ⟨rfl, ?_, ?_, ?_, ?_, ?_, readReg_status_packStatus rfl, rfl, rfl, rfl, rfl, rfl, rfl, rfl, rfl⟩
  · exact statusDone_packStatus ..
  · exact statusErr_packStatus ..
  · exact statusEcode_packStatus ..
  · exact statusFaultSeen_packStatus ..
  · exact statusAccErr_packStatus ..

/-- A command whose writes hold a byte sequence writes it out. -/
theorem writesOut_perform {code : Byte} {w : Writes} {out : List Byte} {s : State} (hm : Memory.wf s.obuf)
    (hw : w.out = some out) (hl : out.length < 65536) : WritesOut out s (complete (perform w (storeCode code s))) := by
  refine ⟨?_, fun k => ?_⟩
  · simp only [complete_olen, perform_olen, hw, lengthWord_eq hl]
  · simp only [complete_obuf, perform_obuf, hw, storeCode_obuf, Memory.read_writeBytes hm]
    simp

/-- A command whose writes hold no byte sequence leaves OLEN and OBUF as they were. -/
theorem keepsOut_perform {code : Byte} {w : Writes} {s : State} (hw : w.out = none) :
    (complete (perform w (storeCode code s))).olen = s.olen ∧ (complete (perform w (storeCode code s))).obuf = s.obuf := by
  simp [hw]

theorem runReading_bounds {code : Byte} {body : State → Except CmdFault Writes} {s : State}
    (h : ilenLen s > s.bufBytes.val) : runReading code body s = faultEntry .bounds (storeCode code s) := if_pos h

theorem runReading_inside {code : Byte} {body : State → Except CmdFault Writes} {s : State}
    (h : ilenLen s ≤ s.bufBytes.val) :
    runReading code body s = finish (body (storeCode code s)) (storeCode code s) := if_neg (Nat.not_lt.2 h)

@[simp] theorem finish_error (f : CmdFault) (s : State) : finish (.error f) s = faultEntry f s := rfl

@[simp] theorem finish_ok (w : Writes) (s : State) : finish (.ok w) s = complete (perform w s) := rfl

@[simp] theorem ilenLen_storeCode (code : Byte) (s : State) : ilenLen (storeCode code s) = ilenLen s := rfl

@[simp] theorem inputBytes_storeCode (code : Byte) (s : State) : inputBytes (storeCode code s) = inputBytes s := rfl

@[simp] theorem inputByte_storeCode (code : Byte) (s : State) (k : Nat) :
    inputByte (storeCode code s) k = inputByte s k := rfl

@[simp] theorem argValue_storeCode (code : Byte) (s : State) : argValue (storeCode code s) = argValue s := rfl

@[simp] theorem pkmode_storeCode (code : Byte) (s : State) : pkmode (storeCode code s) = pkmode s := rfl

/-- Storing a code twice stores the last one. -/
theorem storeCode_writeReg (code : Byte) (v : Word) (s : State) :
    storeCode code (writeReg .cmd v s) = storeCode code s := rfl

@[simp] theorem inputBytes_length (s : State) : (inputBytes s).length = ilenLen s := Memory.readBytes_length ..

theorem inputBytes_getD {s : State} {k : Nat} (h : k < ilenLen s) :
    (inputBytes s).getD k 0x00#8 = Memory.read s.ibuf k := by
  rw [inputBytes, Memory.readBytes_getD h, Nat.zero_add]

theorem ilenLen_lt (s : State) : ilenLen s < 65536 := (s.ilen.extractLsb' 0 16).isLt

theorem olenLen_lt (s : State) : olenLen s < 65536 := (s.olen.extractLsb' 0 16).isLt

/-- The input of a state whose input is `f`. -/
theorem inputBytes_of_inputIs {f : List Byte} {s : State} (h : InputIs f s) : inputBytes s = f := by
  obtain ⟨hl, -, hr⟩ := h
  refine List.ext_getElem (by simp [hl]) fun k h1 h2 => ?_
  have h1' : k < ilenLen s := by simpa using h1
  have := inputBytes_getD h1'
  rw [List.getD_eq_getElem _ _ h1, hr k h2, List.getD_eq_getElem _ _ h2] at this
  exact this

/-- A register's offset is its own. -/
theorem regAt_regOffset (r : Reg) : regAt (regOffset r) = some r := by
  cases r <;> decide

/-- The offset of an IBUF byte is in the IBUF window. -/
theorem ibufAt_ibufOffset {n : BufSize} {k : Nat} (h : k < n.val) : ibufAt n (ibufOffset k) = some k := by
  have hn := n.2.2
  have e : (ibufOffset k).toNat = 0x1000 + k := by
    simp only [ibufOffset, BitVec.toNat_ofNat]; omega
  rw [ibufAt, e, if_pos (by omega)]
  simp

/-- The offset of an OBUF byte is in the OBUF window and not in the IBUF window. -/
theorem obufAt_obufOffset {n : BufSize} {k : Nat} (h : k < n.val) :
    obufAt n (obufOffset k) = some k ∧ ibufAt n (obufOffset k) = none := by
  have hn := n.2.2
  have e : (obufOffset k).toNat = 0x2000 + k := by
    simp only [obufOffset, BitVec.toNat_ofNat]; omega
  constructor
  · rw [obufAt, e, if_pos (by omega)]
    simp
  · rw [ibufAt, e, if_neg (by omega)]

end Sys2Proof.Machine
end

