-- ==== Sys2Proof/Laws/Commands.lean ====
section
/-! SUPPORT. What a command does, said once: every command stores its code and then either takes one fault or performs its writes and
completes, and its writes fit the buffers. Later proofs cite these and do not unfold a meaning again. -/

namespace Sys2Proof.Machine

/-- A body behind RunCommand's check of ILEN.LEN (40_control.md R90). -/
def checkedBody (body : State → Except CmdFault Writes) (s : State) : Except CmdFault Writes :=
  if ilenLen s > s.bufBytes.val then .error .bounds else body s

/-- What a command ends with on a state: its fault or its writes. A host access is no command and makes no writes here. -/
def commandResult (i : Instr) (s : State) : Except CmdFault Writes :=
  match i with
  | .nop => nopBody s
  | .cksum => checkedBody cksumBody s
  | .withck => checkedBody withckBody s
  | .wrap => checkedBody wrapBody s
  | .framedec => checkedBody framedecBody s
  | .enc14hl => enc14hlBody s
  | .enc14lh => enc14lhBody s
  | .dec14hl => checkedBody dec14hlBody s
  | .dec14lh => checkedBody dec14lhBody s
  | .dec21 => checkedBody dec21Body s
  | .nameenc32 => checkedBody nameenc32Body s
  | .namedec32 => checkedBody namedec32Body s
  | .packb => checkedBody packbBody s
  | .unpackb => checkedBody unpackbBody s
  | .rd _ => .ok {}
  | .wr _ _ => .ok {}
  | .rdb _ => .ok {}
  | .wrb _ _ => .ok {}

theorem runReading_eq_finish (code : Byte) (body : State → Except CmdFault Writes) (s : State)
    (h : body (storeCode code s) = body s) :
    runReading code body s = finish (checkedBody body s) (storeCode code s) := by
  by_cases hl : ilenLen s > s.bufBytes.val
  · rw [runReading_bounds hl, checkedBody, if_pos hl, finish_error]
  · rw [runReading_inside (Nat.not_lt.1 hl), checkedBody, if_neg hl, h]

/-- Every command stores its code and then finishes with its result. -/
theorem exec_command {i : Instr} {code : Byte} (h : commandCode i = some code) (s : State) :
    exec i s = .next (finish (commandResult i s) (storeCode code s)) := by
  cases i <;> simp only [commandCode, Option.some.injEq, reduceCtorEq] at h <;> subst h
  case nop => rfl
  case enc14hl => rfl
  case enc14lh => rfl
  all_goals exact congrArg Host.Outcome.next (runReading_eq_finish _ _ s rfl)

/-- A command whose result is a fault takes it. -/
theorem exec_command_error {i : Instr} {code : Byte} (h : commandCode i = some code) {s : State} {f : CmdFault}
    (hr : commandResult i s = .error f) : ∃ t, exec i s = .next t ∧ FaultsWith code f s t :=
  ⟨_, exec_command h s, by rw [hr]; exact faultsWith_faultEntry code f s⟩

/-- A command whose result is its writes performs them and completes. -/
theorem exec_command_ok {i : Instr} {code : Byte} (h : commandCode i = some code) {s : State} {w : Writes}
    (hr : commandResult i s = .ok w) :
    exec i s = .next (complete (perform w (storeCode code s))) ∧
      Completes code s (complete (perform w (storeCode code s))) :=
  ⟨by rw [exec_command h s, hr]; rfl, completes_perform code w s⟩

theorem checkedBody_bounds {body : State → Except CmdFault Writes} {s : State} (h : ilenLen s > s.bufBytes.val) :
    checkedBody body s = .error .bounds := if_pos h

theorem checkedBody_inside {body : State → Except CmdFault Writes} {s : State} (h : ilenLen s ≤ s.bufBytes.val) :
    checkedBody body s = body s := if_neg (Nat.not_lt.2 h)

/-- The packer's output from index `i` on has one byte more than the codes, and one more at each group boundary it passes. -/
theorem packFrom_length_zero (i : Nat) (last : Byte) (cs : List Byte) :
    (packFrom false i last cs).length = cs.length + 1 := by
  induction cs generalizing i last with
  | nil => rfl
  | cons c cs ih => simp [packFrom, ih]

theorem packFrom_length_one (i : Nat) (last : Byte) (cs : List Byte) (hi : 0 < i) :
    (packFrom true i last cs).length = cs.length + 1 + ((i + cs.length - 1) / 7 - (i - 1) / 7) := by
  induction cs generalizing i last with
  | nil => simp [packFrom]
  | cons c cs ih =>
    simp only [packFrom]
    split
    · rename_i h
      simp only [Bool.true_and, Bool.and_eq_true, decide_eq_true_eq, beq_iff_eq] at h
      simp only [List.length_cons, ih _ _ (Nat.succ_pos i)]
      omega
    · rename_i h
      simp only [Bool.true_and, Bool.and_eq_true, decide_eq_true_eq, beq_iff_eq, not_and] at h
      have := h hi
      simp only [List.length_cons, ih _ _ (Nat.succ_pos i)]
      omega

/-- The length the packer checks is the one 43_names.md R182 writes. -/
theorem packedLength_eq_packedSize (n : Nat) (m : Bool) : packedLength n m = Spec.packedSize n m := by
  cases m <;> rfl

/-- The packer's output has `PackedLength(n, m)` bytes (43_names.md R182). -/
theorem packName_length (m : Bool) (codes : List Byte) : (packName m codes).length = packedLength codes.length m := by
  cases m with
  | false => simp [packName, packedLength, packFrom_length_zero]
  | true =>
    cases codes with
    | nil => rfl
    | cons c cs =>
      simp [packName, packFrom, packedLength, packFrom_length_one]
      omega

@[simp] theorem unpackName_length (m : Bool) (n : Nat) (bytes : List Byte) : (unpackName m n bytes).length = n := by
  simp [unpackName]

@[simp] theorem wrapFrame_length (b : List Byte) : (wrapFrame b).length = b.length + 6 := by
  simp [wrapFrame, frameHeader]

theorem withChecksum_length {f : List Byte} (h : 2 ≤ f.length) : (withChecksum f).length = f.length := by
  simp only [withChecksum, List.length_append, List.length_take, List.length_drop, List.length_cons, List.length_nil]
  omega

theorem padName_length {kept : List Byte} (h : kept.length ≤ 32) : (padName kept).length = 32 := by
  simp only [padName, List.length_append, List.length_replicate]
  omega

theorem windowName_length_le (w : List Byte) : (windowName w).length ≤ w.length := by
  have h1 : (windowName w).length ≤ (w.filter fun b => b != 0x00#8).length := by
    simp only [windowName, trimTrailing, List.length_reverse]
    exact le_trans (List.length_dropWhile_le ..) (by simp)
  exact le_trans h1 (List.length_filter_le ..)

/-- A command's byte sequence fits OBUF. -/
theorem commandResult_fits {i : Instr} {s : State} {w : Writes} {out : List Byte} (hr : commandResult i s = .ok w)
    (hw : w.out = some out) : out.length ≤ s.bufBytes.val := by
  have hb := s.bufBytes.2.1
  cases i <;>
    simp only [commandResult, checkedBody, nopBody, cksumBody, withckBody, wrapBody, framedecBody, enc14hlBody,
      enc14lhBody, dec14hlBody, dec14lhBody, dec21Body, nameenc32Body, namedec32Body, packbBody, unpackbBody] at hr <;>
    (repeat' split at hr) <;> cases hr <;> simp only [reduceCtorEq, Option.some.injEq] at hw <;> subst hw
  case withck.isFalse.isFalse h1 h2 =>
    rw [withChecksum_length (by simp; omega)]; simp; omega
  case wrap.isFalse.isFalse h1 h2 => simp; omega
  case framedec.isFalse.isTrue h1 h2 => simp
  case framedec.isFalse.isFalse h1 h2 => simp [framePayload]; omega
  case enc14hl.isFalse => simp; omega
  case enc14lh.isFalse => simp; omega
  case nameenc32.isFalse.isFalse h1 h2 => rw [padName_length (by omega)]; omega
  case namedec32.isFalse.isFalse.isFalse h1 h2 h3 =>
    have := windowName_length_le (inputBytes s)
    simp at this; omega
  case packb.isFalse.isFalse h1 h2 => rw [packName_length]; simp; omega
  case unpackb.isFalse.isFalse.isFalse.isFalse h1 h2 h3 h4 => simp; omega

end Sys2Proof.Machine
end

