-- ==== Sys2Proof/Laws/Access.lean ====
section
/-! SUPPORT. What a host access can do, said once; and what decoding gives. -/

namespace Sys2Proof.Machine

/-- A code that selects an instruction is that instruction's code (30_encoding.md R73). -/
theorem commandCode_of_decodeCode {code : Byte} {i : Instr} (h : decodeCode code = .ok i) : commandCode i = some code := by
  simp only [decodeCode] at h
  split at h
  · rename_i row hrow
    cases h
    have hmem := List.mem_of_find?_eq_some hrow
    have hcode : row.1 = code := by simpa using List.find?_some hrow
    simp only [commandTable, List.mem_cons, List.not_mem_nil, or_false] at hmem
    rcases hmem with rfl | rfl | rfl | rfl | rfl | rfl | rfl | rfl | rfl | rfl | rfl | rfl | rfl | rfl <;>
      simp only at hcode <;> subst hcode <;> rfl
  · cases h

/-- A command's code selects it (30_encoding.md R73). -/
theorem decodeCode_of_commandCode {code : Byte} {i : Instr} (h : commandCode i = some code) : decodeCode code = .ok i := by
  cases i <;> simp only [commandCode, Option.some.injEq, reduceCtorEq] at h <;> subst h <;> rfl

/-- Running a code that selects a command runs that command. -/
theorem runCommand_eq_exec {code : Byte} {i : Instr} (h : decodeCode code = .ok i) (s : State) :
    runCommand code s = exec i s := by
  have hc := commandCode_of_decodeCode h
  cases i <;> simp only [commandCode, reduceCtorEq] at hc <;> simp only [runCommand, h, exec]

/-- Running a reserved code stores it and takes E_ILLEGAL (30_encoding.md R74). -/
theorem runCommand_reserved {code : Byte} {r : DecodeReject} (h : decodeCode code = .error r) (s : State) :
    runCommand code s = .next (runReserved code s) := by
  simp only [runCommand, h]

/-- What a command sees of CMD does not matter to it: it stores its own code first. -/
theorem exec_command_writeReg {i : Instr} {code : Byte} (h : commandCode i = some code) (v : Word) (s : State) :
    exec i (writeReg .cmd v s) = exec i s := by
  rw [exec_command h, exec_command h, storeCode_writeReg]
  cases i <;> simp only [commandCode, reduceCtorEq] at h <;> rfl

/-- WR at CMD of a code that selects a command runs it. -/
theorem execWr_command {v : Word} {i : Instr} (h : decodeCode (v.setWidth 8) = .ok i) (s : State) :
    execWr 0x0000#16 v s = exec i s := by
  show runCommand (v.setWidth 8) (writeReg .cmd v s) = exec i s
  rw [runCommand_eq_exec h, exec_command_writeReg (commandCode_of_decodeCode h)]

/-- WR at CMD of a reserved code. -/
theorem execWr_reserved {v : Word} {r : DecodeReject} (h : decodeCode (v.setWidth 8) = .error r) (s : State) :
    execWr 0x0000#16 v s = .next (runReserved (v.setWidth 8) s) := by
  show runCommand (v.setWidth 8) (writeReg .cmd v s) = _
  rw [runCommand_reserved h]
  rfl

/-- An offset that no word access may use. -/
theorem regAt_none {a : Offset} (h : a.toNat > 0x1F ∨ a.toNat % 4 ≠ 0) : regAt a = none := if_pos h

/-- An offset that a word access may use is some register's. -/
theorem regAt_ne_none {a : Offset} (h : ¬ (a.toNat > 0x1F ∨ a.toNat % 4 ≠ 0)) : regAt a ≠ none := by
  simp only [regAt, if_neg h]
  split <;> simp_all
  omega

/-- Each register has one offset (20_memory.md R52). -/
theorem eq_regOffset_of_regAt {a : Offset} {r : Reg} (h : regAt a = some r) : a = regOffset r := by
  apply BitVec.eq_of_toNat_eq
  simp only [regAt] at h
  split at h
  · cases h
  · split at h <;> cases h <;> simp [regOffset] <;> omega

theorem regAt_cmd {a : Offset} (h : regAt a = some .cmd) : a = 0x0000#16 := eq_regOffset_of_regAt h

/-- What a WR that is not at CMD does: an access error, or one register's store. -/
theorem execWr_cases {a : Offset} (h : a ≠ 0x0000#16) (v : Word) (s : State) :
    (execWr a v s = .next (accessErrorEntry .writeError s)) ∨
      ∃ r : Reg, r ≠ .cmd ∧ a = regOffset r ∧ execWr a v s = .next (writeReg r v s) := by
  cases hr : regAt a with
  | none => exact .inl (by simp only [execWr, hr])
  | some r =>
    have hne : r ≠ .cmd := by rintro rfl; exact h (regAt_cmd hr)
    exact .inr ⟨r, hne, eq_regOffset_of_regAt hr, by simp only [execWr, hr, hne, if_false]⟩

/-- What a WRB does: an IBUF byte's store inside the window, nothing, or an access error. -/
theorem execWrb_cases (a : Offset) (v : Byte) (s : State) :
    (∃ k, k < s.bufBytes.val ∧ execWrb a v s = .next { s with ibuf := Memory.write s.ibuf k v }) ∨
      execWrb a v s = .next s ∨ execWrb a v s = .next (accessErrorEntry .writeError s) := by
  cases hi : ibufAt s.bufBytes a with
  | some k =>
    refine .inl ⟨k, ?_, by simp only [execWrb, hi]⟩
    simp only [ibufAt] at hi
    split at hi
    · have := Option.some.inj hi
      omega
    · cases hi
  | none =>
    cases ho : obufAt s.bufBytes a with
    | some k => exact .inr (.inl (by simp only [execWrb, hi, ho]))
    | none => exact .inr (.inr (by simp only [execWrb, hi, ho]))

/-- What a read does: it gives a value or an error response back. -/
theorem execRd_cases (a : Offset) (s : State) :
    (∃ r, execRd a s = .next (giveBack r s)) ∨ execRd a s = .next (accessErrorEntry .readError s) := by
  cases h : regAt a with
  | some r => exact .inl ⟨.word (readReg r s), by simp only [execRd, h]⟩
  | none => exact .inr (by simp only [execRd, h])

theorem execRdb_cases (a : Offset) (s : State) :
    (∃ r, execRdb a s = .next (giveBack r s)) ∨ execRdb a s = .next (accessErrorEntry .readError s) := by
  cases hi : ibufAt s.bufBytes a with
  | some k => exact .inl ⟨.byte (Memory.read s.ibuf k), by simp only [execRdb, hi]⟩
  | none =>
    cases ho : obufAt s.bufBytes a with
    | some k => exact .inl ⟨.byte (Memory.read s.obuf k), by simp only [execRdb, hi, ho]⟩
    | none => exact .inr (by simp only [execRdb, hi, ho])

/-- An access error leaves what the spec says it leaves (60_exceptions.md R220). -/
theorem endsInAccessError_entry (r : Response) (s : State) : EndsInAccessError r s (accessErrorEntry r s) := by
  refine ⟨?_, fun j hj => ?_, rfl⟩
  · simp [statusAccErr, accessErrorEntry_status]
  · rw [accessErrorEntry_status, BitVec.getLsbD_or]
    have h8 : (8#32 : Word) = BitVec.twoPow 32 3 := by decide
    rw [h8, BitVec.getLsbD_twoPow]
    simp [show ¬ 3 = j from fun h => hj h.symm]

/-- Every instruction ends in a next state. -/
theorem exec_next (i : Instr) (s : State) : ∃ t, exec i s = .next t := by
  cases hc : commandCode i with
  | some code => exact ⟨_, exec_command hc s⟩
  | none =>
    cases i <;> simp only [commandCode, reduceCtorEq] at hc
    case rd a => rcases execRd_cases a s with ⟨r, h⟩ | h <;> exact ⟨_, h⟩
    case rdb a => rcases execRdb_cases a s with ⟨r, h⟩ | h <;> exact ⟨_, h⟩
    case wrb a v => rcases execWrb_cases a v s with ⟨k, -, h⟩ | h | h <;> exact ⟨_, h⟩
    case wr a v =>
      by_cases ha : a = 0x0000#16
      · subst ha
        cases hd : decodeCode (v.setWidth 8) with
        | ok i =>
          exact ⟨_, (execWr_command hd s).trans (exec_command (commandCode_of_decodeCode hd) s)⟩
        | error r => exact ⟨_, execWr_reserved hd s⟩
      · rcases execWr_cases ha v s with h | ⟨r, -, -, h⟩ <;> exact ⟨_, h⟩

end Sys2Proof.Machine
end

