-- ==== Sys2Proof/Laws/PerInstr.lean ====
section
/-! SUPPORT. Statements made per instruction. The family `HostAccessForm`: how each instruction stands on the host bus (30_encoding.md
R70, R72, R73). -/

namespace Sys2Proof.Laws.HostAccessForm

/-- A command is a word write to CMD, at offset 0, of its 8-bit code with nothing above it, and the code selects it; a host access
is a triple with its own kind code and offset, and a write carries its data. -/
def Statement (i : Instr) : Prop :=
  match i with
  | .rd a => encode i = ⟨0b00#2, a, 0#32⟩
  | .wr a v => encode i = ⟨0b01#2, a, v⟩
  | .rdb a => encode i = ⟨0b10#2, a, 0#32⟩
  | .wrb a v => encode i = ⟨0b11#2, a, v.setWidth 32⟩
  | _ => ∃ code : Byte, encode i = ⟨0b01#2, 0x0000#16, code.setWidth 32⟩ ∧ decodeCode code = .ok i

theorem nop : Statement .nop := ⟨0x00#8, rfl, rfl⟩
theorem cksum : Statement .cksum := ⟨0x01#8, rfl, rfl⟩
theorem withck : Statement .withck := ⟨0x02#8, rfl, rfl⟩
theorem wrap : Statement .wrap := ⟨0x03#8, rfl, rfl⟩
theorem framedec : Statement .framedec := ⟨0x04#8, rfl, rfl⟩
theorem enc14hl : Statement .enc14hl := ⟨0x10#8, rfl, rfl⟩
theorem enc14lh : Statement .enc14lh := ⟨0x11#8, rfl, rfl⟩
theorem dec14hl : Statement .dec14hl := ⟨0x12#8, rfl, rfl⟩
theorem dec14lh : Statement .dec14lh := ⟨0x13#8, rfl, rfl⟩
theorem dec21 : Statement .dec21 := ⟨0x14#8, rfl, rfl⟩
theorem nameenc32 : Statement .nameenc32 := ⟨0x20#8, rfl, rfl⟩
theorem namedec32 : Statement .namedec32 := ⟨0x21#8, rfl, rfl⟩
theorem packb : Statement .packb := ⟨0x22#8, rfl, rfl⟩
theorem unpackb : Statement .unpackb := ⟨0x23#8, rfl, rfl⟩
theorem rd (offset : Offset) : Statement (.rd offset) := rfl
theorem wr (offset : Offset) (data : Word) : Statement (.wr offset data) := rfl
theorem rdb (offset : Offset) : Statement (.rdb offset) := rfl
theorem wrb (offset : Offset) (data : Byte) : Statement (.wrb offset data) := rfl

end Sys2Proof.Laws.HostAccessForm
end

