-- ==== Sys2Proof/Tests/Slice0.lean ====
section
/-! SUPPORT. The model's own tests: the well-formedness checks, decoding of words written out from the spec's encodings, one step of
each instruction with the result the spec's vectors give (95_test_vectors.md), and a witness for the hypotheses of each statement,
clause by clause at its boundaries. -/

namespace Sys2Proof.Tests
open Sys2Proof Sys2Proof.Machine Sys2Proof.Spec

/-! ## Small states -/

/-- The smallest buffers the spec allows. -/
def smallBuffers : BufSize := ⟨64, by decide⟩

/-- A block of the smallest buffers whose input sequence is `b`. -/
def input (b : List Byte) : State :=
  { State.reset with ilen := BitVec.ofNat 32 b.length, ibuf := Memory.writeBytes [] 0 b, bufBytes := smallBuffers }

/-- The same with ILEN.LEN one past the buffer. -/
def longInput : State := { input [] with ilen := 65#32 }

/-- The same with ARG. -/
def withArg (v : Word) (s : State) : State := { s with arg := v }

/-- The same with CFG.PKMODE 1. -/
def withModeOne (s : State) : State := { s with cfg := 1#32 }

/-- The state an instruction leaves. -/
def after (i : Instr) (s : State) : State :=
  match exec i s with
  | .next t => t
  | .fault _ => s
  | .refused _ => s

/-- A fresh block of the same machine whose input is another block's output. -/
def fed (t : State) : State := { State.reset with bufBytes := t.bufBytes, ilen := t.olen, ibuf := t.obuf }

theorem input_is (b : List Byte) (h : b.length ≤ 64) : InputIs b (input b) := by
  refine ⟨?_, h, fun k hk => ?_⟩
  · simp only [ilenLen, input, BitVec.extractLsb'_toNat, BitVec.toNat_ofNat]
    omega
  · simp only [input, Memory.read_writeBytes Memory.wf_nil]
    simp [hk]

theorem exec_after (i : Instr) (s : State) : exec i s = .next (after i s) := by
  obtain ⟨t, h⟩ := exec_next i s
  simp only [after, h]

theorem fed_feeds (t : State) : FeedsTo t (fed t) := ⟨rfl, rfl, fun _ _ => rfl⟩

/-! ## Well-formedness -/

theorem test_commandWrite_illFormed : WellFormed (.wr 0x0000#16 0x00000001#32) = false := by decide
theorem test_commandWrite_highBits_illFormed : WellFormed (.wr 0x0000#16 0xFFFFFF23#32) = false := by decide
theorem test_reservedWrite_wellFormed : WellFormed (.wr 0x0000#16 0x00000005#32) = true := by decide
theorem test_otherWrite_wellFormed : WellFormed (.wr 0x0008#16 0x00000001#32) = true := by decide

/-! ## Decoding: words from 30_encoding.md R72, R73, one for each row -/

theorem test_decode_nop : decodeAccess ⟨0b01#2, 0b0000000000000000#16, 0b00000000#32⟩ = .nop := by decide
theorem test_decode_cksum : decodeAccess ⟨0b01#2, 0b0000000000000000#16, 0b00000001#32⟩ = .cksum := by decide
theorem test_decode_withck : decodeAccess ⟨0b01#2, 0b0000000000000000#16, 0b00000010#32⟩ = .withck := by decide
theorem test_decode_wrap : decodeAccess ⟨0b01#2, 0b0000000000000000#16, 0b00000011#32⟩ = .wrap := by decide
theorem test_decode_framedec : decodeAccess ⟨0b01#2, 0b0000000000000000#16, 0b00000100#32⟩ = .framedec := by decide
theorem test_decode_enc14hl : decodeAccess ⟨0b01#2, 0b0000000000000000#16, 0b00010000#32⟩ = .enc14hl := by decide
theorem test_decode_enc14lh : decodeAccess ⟨0b01#2, 0b0000000000000000#16, 0b00010001#32⟩ = .enc14lh := by decide
theorem test_decode_dec14hl : decodeAccess ⟨0b01#2, 0b0000000000000000#16, 0b00010010#32⟩ = .dec14hl := by decide
theorem test_decode_dec14lh : decodeAccess ⟨0b01#2, 0b0000000000000000#16, 0b00010011#32⟩ = .dec14lh := by decide
theorem test_decode_dec21 : decodeAccess ⟨0b01#2, 0b0000000000000000#16, 0b00010100#32⟩ = .dec21 := by decide
theorem test_decode_nameenc32 : decodeAccess ⟨0b01#2, 0b0000000000000000#16, 0b00100000#32⟩ = .nameenc32 := by decide
theorem test_decode_namedec32 : decodeAccess ⟨0b01#2, 0b0000000000000000#16, 0b00100001#32⟩ = .namedec32 := by decide
theorem test_decode_packb : decodeAccess ⟨0b01#2, 0b0000000000000000#16, 0b00100010#32⟩ = .packb := by decide
theorem test_decode_unpackb : decodeAccess ⟨0b01#2, 0b0000000000000000#16, 0b00100011#32⟩ = .unpackb := by decide
theorem test_decode_rd : decodeAccess ⟨0b00#2, 0b0000000000011100#16, 0#32⟩ = .rd 0x001C#16 := by decide
theorem test_decode_wr : decodeAccess ⟨0b01#2, 0b0000000000010100#16, 0x00012345#32⟩ = .wr 0x0014#16 0x00012345#32 := by decide
theorem test_decode_rdb : decodeAccess ⟨0b10#2, 0b0010000000000001#16, 0#32⟩ = .rdb 0x2001#16 := by decide
theorem test_decode_wrb : decodeAccess ⟨0b11#2, 0b0001000000000010#16, 0x000000F7#32⟩ = .wrb 0x1002#16 0xF7#8 := by decide
theorem test_decode_reserved : decodeCode 0x05#8 = .error (.reservedCode 0x05#8) := by decide

/-! The host's words: a command's 8 bits, and a host access's triple (assumption 4). -/

theorem test_tableWord_unpackb : decodeTableWord 8 0x23 = some .unpackb := by decide
theorem test_tableWord_reserved : decodeTableWord 8 0x24 = none := by decide
theorem test_tableWord_wr : decodeTableWord 50 (0x41 * 2 ^ 18 + 0x0008 * 4 + 1) = some (.wr 0x0008#16 0x00000041#32) := by decide
theorem test_withFetchWord_nop : step (State.reset.withFetchWord 8 0x00) = exec .nop State.reset := by rfl
theorem test_withFetchWord_enc14hl : step (State.reset.withFetchWord 8 0x10) = exec .enc14hl State.reset := by rfl

/-! ## One step of each instruction: the spec's vectors -/

/-- V-NOP, and V-ACC-15: NOP keeps the sticky ACCERR. -/
theorem test_nop_status : (after .nop State.reset).status = 0x00000001#32 := by decide
theorem test_nop_keepsAccerr : (after .nop (after (.rd 0x0002#16) State.reset)).status = 0x00000009#32 := by decide

/-- V-CK-4, V-CK-1. -/
theorem test_cksum_frame :
    (after .cksum (input [0xF0#8, 0x00#8, 0x01#8, 0x74#8, 0x03#8, 0x0F#8, 0xF7#8])).res = 0x00000009#32 := by decide
theorem test_cksum_short : (after .cksum (input [])).status = 0x00000306#32 := by decide

/-- V-WC-1, V-WC-4. -/
theorem test_withck_slot :
    outgoingBytes (after .withck (input [0xF0#8, 0x00#8, 0x01#8, 0x74#8, 0x03#8, 0x0F#8, 0x00#8, 0xF7#8])) =
      [0xF0#8, 0x00#8, 0x01#8, 0x74#8, 0x03#8, 0x0F#8, 0x09#8, 0xF7#8] := by decide
theorem test_withck_oldSlotFolded :
    outgoingBytes (after .withck (input [0x10#8, 0x22#8, 0x00#8])) = [0x10#8, 0x32#8, 0x00#8] := by decide

/-- V-WR-3, V-WR-5. -/
theorem test_wrap_preset :
    outgoingBytes (after .wrap (input [0x03#8, 0x3C#8, 0x00#8, 0x7F#8])) =
      [0xF0#8, 0x00#8, 0x01#8, 0x74#8, 0x03#8, 0x3C#8, 0x00#8, 0x7F#8, 0x45#8, 0xF7#8] := by decide
theorem test_wrap_bit7 : (after .wrap (input [0x03#8, 0x3C#8, 0x80#8])).res = 0x0000003A#32 := by decide

/-- V-FD-3, V-FD-8. -/
theorem test_framedec_fields :
    (after .framedec (input [0xF0#8, 0x00#8, 0x01#8, 0x74#8, 0x03#8, 0x14#8, 0x01#8, 0x6B#8, 0x78#8, 0xF7#8])).frm =
      0x78781403#32 := by decide
theorem test_framedec_badSlot :
    (after .framedec (input [0xF0#8, 0x00#8, 0x01#8, 0x74#8, 0x03#8, 0x14#8, 0x01#8, 0x6B#8, 0xF8#8, 0xF7#8])).res =
      0x00000007#32 := by decide

/-- V-I14-3, V-I14-6. -/
theorem test_enc14hl_carry : outgoingBytes (after .enc14hl (withArg 128#32 State.reset)) = [0x01#8, 0x00#8] := by decide
theorem test_enc14hl_range : (after .enc14hl (withArg 16384#32 State.reset)).status = 0x00000506#32 := by decide

/-- 42_int7.md R143: 120 low-first is `[120, 0]`; 128 is `[0, 1]`. -/
theorem test_enc14lh_low : outgoingBytes (after .enc14lh (withArg 120#32 State.reset)) = [0x78#8, 0x00#8] := by decide
theorem test_enc14lh_carry : outgoingBytes (after .enc14lh (withArg 128#32 State.reset)) = [0x00#8, 0x01#8] := by decide

/-- V-I14-14 (235 from `[1, 107]`), and R145's E_DATA8. -/
theorem test_dec14hl_preset : (after .dec14hl (input [0x01#8, 0x6B#8])).res = 235#32 := by decide
theorem test_dec14hl_data8 : (after .dec14hl (input [0x80#8, 0x00#8])).status = 0x00000602#32 := by decide

/-- 42_int7.md R146: `[1, 2]` low-first is 1 + 2 * 128; three bytes are E_LENGTH. -/
theorem test_dec14lh_value : (after .dec14lh (input [0x01#8, 0x02#8])).res = 257#32 := by decide
theorem test_dec14lh_length : (after .dec14lh (input [0x01#8, 0x02#8, 0x03#8])).status = 0x00000406#32 := by decide

/-- V-I21-1, V-I21-5. -/
theorem test_dec21_value : (after .dec21 (input [0x01#8, 0x02#8, 0x03#8])).res = 0x0000C101#32 := by decide
theorem test_dec21_data8 : (after .dec21 (input [0x01#8, 0x02#8, 0x83#8])).status = 0x00000602#32 := by decide

/-- V-N32-1. -/
theorem test_nameenc32_dropped :
    (after .nameenc32 (input [0x43#8, 0x61#8, 0x66#8, 0xC3#8, 0xA9#8])).res = 3#32 := by decide
theorem test_nameenc32_padded :
    Memory.readBytes (after .nameenc32 (input [0x43#8, 0x61#8, 0x66#8, 0xC3#8, 0xA9#8])).obuf 1 4 =
      [0x61#8, 0x66#8, 0x20#8, 0x20#8] := by decide

/-- V-N32-12, V-N32-14. -/
theorem test_namedec32_trim :
    outgoingBytes (after .namedec32
        (input ([0x20#8, 0x41#8, 0x09#8, 0x42#8, 0x0B#8, 0x0D#8] ++ List.replicate 26 0x00#8))) =
      [0x20#8, 0x41#8, 0x09#8, 0x42#8] := by decide
theorem test_namedec32_length :
    (after .namedec32 (input (0x80#8 :: List.replicate 30 0x41#8))).status = 0x00000406#32 := by decide

/-- V-PK-3, V-PK-7. -/
theorem test_packb_aa : outgoingBytes (after .packb (input [0x61#8, 0x61#8])) = [0x30#8, 0x58#8, 0x20#8] := by decide
theorem test_packb_groups :
    outgoingBytes (after .packb
        (withModeOne (input [0x61#8, 0x62#8, 0x63#8, 0x64#8, 0x65#8, 0x66#8, 0x67#8, 0x68#8]))) =
      [0x30#8, 0x58#8, 0x4C#8, 0x36#8, 0x23#8, 0x15#8, 0x4C#8, 0x67#8, 0x34#8, 0x00#8] := by decide

/-- V-UP-1, V-UP-10. -/
theorem test_unpackb_aa :
    outgoingBytes (after .unpackb (withArg 2#32 (input [0x30#8, 0x58#8, 0x20#8]))) = [0x61#8, 0x61#8] := by decide
theorem test_unpackb_merged :
    outgoingBytes (after .unpackb
        (withArg 8#32 (input [0x30#8, 0x58#8, 0x4C#8, 0x36#8, 0x23#8, 0x15#8, 0x4C#8, 0x77#8, 0x00#8]))) =
      [0x61#8, 0x62#8, 0x63#8, 0x64#8, 0x65#8, 0x66#8, 0x77#8, 0xEE#8] := by decide

/-- V-ACC-6, V-ACC-1. -/
theorem test_rd_topOfSpace : (after (.rd 0xFFFC#16) State.reset).returned = [.readError] := by decide
theorem test_rd_misaligned : (after (.rd 0x0002#16) State.reset).status = 0x00000008#32 := by decide

/-- V-ACC-11, V-ACC-14. -/
theorem test_wr_ilen : (after (.wr 0x0014#16 0x00012345#32) State.reset).ilen = 0x00002345#32 := by decide
theorem test_wr_cmdHighBits :
    (readReg .cmd (after (.wr 0x0000#16 0x00000101#32) State.reset),
      (after (.wr 0x0000#16 0x00000101#32) State.reset).status) = (0x00000001#32, 0x00000306#32) := by decide

/-- V-ACC-7, V-ACC-5. -/
theorem test_rdb_last : (after (.rdb 0x13FF#16) State.reset).returned = [.byte 0x00#8] := by decide
theorem test_rdb_past : (after (.rdb 0x1400#16) State.reset).status = 0x00000008#32 := by decide

/-- 20_memory.md R53, and V-ACC-8. -/
theorem test_wrb_ibuf : Memory.read (after (.wrb 0x1001#16 0x3C#8) State.reset).ibuf 1 = 0x3C#8 := by decide
theorem test_wrb_obuf : after (.wrb 0x2000#16 0x55#8) State.reset = State.reset := by decide

/-! ## Witnesses: each statement's hypotheses, clause by clause -/

theorem witness_DecodeOfEncodeGivesTheInstruction :
    WellFormed .unpackb = true ∧ WellFormed (.wr 0x0000#16 0x000000FF#32) = true ∧
      WellFormed (.wr 0x0014#16 0xFFFFFFFF#32) = true ∧ WellFormed (.wrb 0xFFFF#16 0xFF#8) = true := by decide

/-- A byte write; a word write just past CMD. -/
theorem witness_DecodedAccessIsWellFormedAndLosesNothing :
    (⟨0b11#2, 0x1000#16, 0xABCDEF12#32⟩ : HostAccess).kind = 0b11#2 ∧
      (⟨0b01#2, 0x0001#16, 0xABCDEF12#32⟩ : HostAccess).kind = 0b01#2 ∧
      (⟨0b01#2, 0x0001#16, 0xABCDEF12#32⟩ : HostAccess).offset ≠ 0x0000#16 := by decide

theorem witness_EachCodeSelectsItsCommand : decodeCode 0x00#8 = .ok .nop ∧ decodeCode 0x23#8 = .ok .unpackb := by decide

/-- Both ends of each reserved range, and their neighbours that are not reserved. -/
theorem witness_ReservedCodesFaultIllegal :
    ([0x05#8, 0x0F#8, 0x15#8, 0x1F#8, 0x24#8, 0xFF#8].all fun c => decide (decodeCode c = .error (.reservedCode c))) = true ∧
      ([0x04#8, 0x10#8, 0x14#8, 0x20#8, 0x23#8].all fun c => decide (decodeCode c ≠ .error (.reservedCode c))) = true ∧
      (0xFFFFFF05#32).setWidth 8 = 0x05#8 := by decide

theorem witness_StepRunsTheDecodedAccess :
    (loadProgram (pseudoCmd .nop) State.reset).pending = [.access (cmdWrite 0x00#8)] ∧
      (loadProgram (pseudoCmd .nop) State.reset).resetLine = false := by decide

theorem witness_IdleStepKeepsEverything : State.reset.pending = [] := rfl

theorem witness_ResetInputClearsTheWholeBlock :
    ({ input [0x01#8] with pending := [.assertReset, .releaseReset] }).pending = .assertReset :: [.releaseReset] ∧
      ({ input [0x01#8] with pending := [.releaseReset] }).pending = .releaseReset :: [] := by decide

theorem witness_AccessDuringResetStops :
    ({ loadProgram pseudoCheck State.reset with resetLine := true }).pending = [.access ⟨0b00#2, 0x0004#16, 0#32⟩] ∧
      ({ loadProgram pseudoCheck State.reset with resetLine := true }).resetLine = true := by decide

/-- A step from a state whose two sticky bits are set. -/
theorem witness_OnlyResetClearsTheStickyBits :
    step { loadProgram (pseudoCmd .nop) State.reset with status := 0x0000000C#32 } =
        .next (after .nop { State.reset with status := 0x0000000C#32 }) ∧
      (loadProgram (pseudoCmd .nop) State.reset).pending.head? ≠ some .assertReset ∧
      statusFaultSeen 0x0000000C#32 = true ∧ statusAccErr 0x0000000C#32 = true :=
  ⟨exec_after .nop _, by decide, by decide, by decide⟩

theorem reset_inv : Inv State.reset := by
  refine ⟨⟨by decide, by decide, by decide, by decide⟩, ?_, ?_, ?_, by unfold OutputFits; decide⟩
  · intro r
    cases r <;> rfl
  · unfold StatusLegal
    decide
  · intro _ _
    decide

/-- A step from a state that meets the invariant: the host's write of IBUF's last byte. -/
theorem witness_StepKeepsTheInvariant :
    Inv { State.reset with pending := [.access ⟨0b11#2, 0x13FF#16, 0x00000041#32⟩] } ∧
      step { State.reset with pending := [.access ⟨0b11#2, 0x13FF#16, 0x00000041#32⟩] } =
        .next (after (.wrb 0x13FF#16 0x41#8) State.reset) := ⟨reset_inv, exec_after (.wrb 0x13FF#16 0x41#8) State.reset⟩

theorem witness_StepStopsOnlyOnAccessDuringReset :
    step State.reset = .next State.reset ∧
      step { loadProgram pseudoCheck State.reset with resetLine := true } = .fault .accessDuringReset := ⟨rfl, rfl⟩

theorem witness_WrToCmdRunsTheNamedCommand : decodeCode ((0x00000101#32).setWidth 8) = .ok .cksum := by decide

/-- The first and the last byte of the smallest and of the largest buffers. -/
theorem witness_RdbReturnsTheBufferByte :
    0 < (input []).bufBytes.val ∧ 63 < (input []).bufBytes.val ∧ 4095 < (⟨4096, by decide⟩ : BufSize).val := by decide

theorem witness_WrbStoresOneInputByte : Memory.wf (input [0x01#8]).ibuf ∧ 63 < (input [0x01#8]).bufBytes.val := by decide

theorem witness_WrbToOutputBufferIsIgnored : 63 < (input []).bufBytes.val := by decide

/-- The offsets where the windows end: 0x0020 and 0x0001 for words, 0x0FFF, 0x1040, 0x1FFF and 0x2040 for bytes; and 0x001C, 0x1000,
0x103F, 0x2000 and 0x203F, which are no access errors. -/
theorem witness_AccessErrorSetsOnlyAccerr :
    ([0x0020#16, 0x0001#16, 0x001E#16, 0x1000#16, 0xFFFC#16].all fun a =>
        decide (a.toNat > 0x001F ∨ a.toNat % 4 ≠ 0)) = true ∧
      ¬ ((0x001C#16).toNat > 0x001F ∨ (0x001C#16).toNat % 4 ≠ 0) ∧
      ([0x0000#16, 0x0FFF#16, 0x1040#16, 0x1FFF#16, 0x2040#16, 0xFFFF#16].all fun a =>
        decide (¬ (0x1000 ≤ a.toNat ∧ a.toNat < 0x1000 + (input []).bufBytes.val)) &&
          decide (¬ (0x2000 ≤ a.toNat ∧ a.toNat < 0x2000 + (input []).bufBytes.val))) = true ∧
      ([0x1000#16, 0x103F#16, 0x2000#16, 0x203F#16].all fun a =>
        decide (0x1000 ≤ a.toNat ∧ a.toNat < 0x1000 + (input []).bufBytes.val) ||
          decide (0x2000 ≤ a.toNat ∧ a.toNat < 0x2000 + (input []).bufBytes.val)) = true := by decide

/-- A WR at ILEN, to which the clauses of ARG, CFG and IBUF apply, and no access error. -/
theorem witness_OnlyCmdWritesHaveSideEffects :
    commandCode (.wr 0x0014#16 5#32) = none ∧ (∀ v, (.wr 0x0014#16 5#32 : Instr) ≠ .wr 0x0000#16 v) ∧
      exec (.wr 0x0014#16 5#32) State.reset = .next (after (.wr 0x0014#16 5#32) State.reset) ∧
      (∀ v, (.wr 0x0014#16 5#32 : Instr) ≠ .wr 0x0008#16 v) ∧ (∀ v, (.wr 0x0014#16 5#32 : Instr) ≠ .wr 0x0010#16 v) ∧
      (∀ a v, (.wr 0x0014#16 5#32 : Instr) ≠ .wrb a v) ∧ ¬ AccessIsError (.wr 0x0014#16 5#32) State.reset :=
  ⟨rfl, fun v => by simp, exec_after _ _, fun v => by simp, fun v => by simp, fun a v => by simp,
    by unfold AccessIsError; decide⟩

/-- A WRB at IBUF[1], to which the clauses of ILEN and of the bytes beside it apply. -/
theorem witness_OnlyCmdWritesHaveSideEffects_wrb :
    commandCode (.wrb 0x1001#16 5#8) = none ∧ (∀ v, (.wrb 0x1001#16 5#8 : Instr) ≠ .wr 0x0000#16 v) ∧
      exec (.wrb 0x1001#16 5#8) State.reset = .next (after (.wrb 0x1001#16 5#8) State.reset) ∧
      (∀ v, (.wrb 0x1001#16 5#8 : Instr) ≠ .wr 0x0014#16 v) ∧ Memory.wf State.reset.ibuf ∧
      (∀ v, (.wrb 0x1001#16 5#8 : Instr) ≠ .wrb (BitVec.ofNat 16 (0x1000 + 0)) v) ∧
      ∀ v, (.wrb 0x1001#16 5#8 : Instr) ≠ .wrb (BitVec.ofNat 16 (0x1000 + 2)) v :=
  ⟨rfl, fun v => by simp, exec_after _ _, fun v => by simp, Memory.wf_nil, fun v => by simp, fun v => by simp⟩

/-- Where the windows end: the last register's offset and the last IBUF byte's are no access errors, the next ones are. -/
theorem witness_OnlyCmdWritesHaveSideEffects_windows :
    ¬ AccessIsError (.rd 0x001C#16) (input []) ∧ AccessIsError (.rd 0x0020#16) (input []) ∧
      ¬ AccessIsError (.rdb 0x103F#16) (input []) ∧ AccessIsError (.rdb 0x1040#16) (input []) := by
  simp only [AccessIsError, OutsideBuffers]
  decide

theorem witness_EveryCommandCompletesOrFaults : commandCode .unpackb = some 0x23#8 := rfl

/-- For each frame clause a command it applies to: ENC14HL keeps FRM, NOP keeps RES, DEC21 keeps OLEN and OBUF, and an OBUF byte at
the OLEN that is left. -/
theorem witness_CommandsWriteOnlyTheirOutputs :
    commandCode .enc14hl = some 0x10#8 ∧ Memory.wf (input []).obuf ∧
      exec .enc14hl (input []) = .next (after .enc14hl (input [])) ∧ Instr.enc14hl ≠ .framedec ∧
      commandCode .nop = some 0x00#8 ∧ exec .nop (input []) = .next (after .nop (input [])) ∧
      Instr.dec21 ∈ [Instr.nop, .cksum, .dec14hl, .dec14lh, .dec21] ∧ olenLen (after .enc14hl (input [])) ≤ 2 :=
  ⟨rfl, Memory.wf_nil, exec_after _ _, by decide, rfl, exec_after _ _, by decide, by decide⟩

theorem witness_LongInputFaultsBounds :
    commandCode .cksum = some 0x01#8 ∧ Instr.cksum ∉ [Instr.nop, .enc14hl, .enc14lh] ∧
      ilenLen longInput > longInput.bufBytes.val := by decide

theorem witness_ReportedFaultIsTheFirstThatHolds :
    commandCode .namedec32 = some 0x21#8 ∧
      exec .namedec32 (input [0x80#8]) = .next (after .namedec32 (input [0x80#8])) := ⟨rfl, exec_after _ _⟩

/-- Each of the six faults a command of the map can report, and none. -/
theorem witness_ReportedFaultIsTheFirstThatHolds_each :
    faultPriority.find? (faultCause .cksum longInput) = some .bounds ∧
      faultPriority.find? (faultCause .withck (input [0x00#8])) = some .short ∧
      faultPriority.find? (faultCause .namedec32 (input [0x80#8])) = some .length ∧
      faultPriority.find? (faultCause .enc14lh (withArg 16384#32 (input []))) = some .range ∧
      faultPriority.find? (faultCause .dec14lh (input [0x00#8, 0x80#8])) = some .data8 ∧
      faultPriority.find? (faultCause .wrap (input (List.replicate 59 0x00#8))) = some .overflow ∧
      faultPriority.find? (faultCause .nop longInput) = none := by decide

/-- Two states that differ in a byte past the input and in every output. -/
theorem witness_CommandsReadOnlyTheirOperands :
    commandCode .wrap = some 0x03#8 ∧
      (∀ k, k < ilenLen (input [0x01#8]) →
        Memory.read (Memory.write (input [0x01#8]).ibuf 1 0x55#8) k = Memory.read (input [0x01#8]).ibuf k) ∧
      exec .wrap (input [0x01#8]) = .next (after .wrap (input [0x01#8])) ∧
      exec .wrap { input [0x01#8] with ibuf := Memory.write (input [0x01#8]).ibuf 1 0x55#8, res := 7#32, frm := 9#32 } =
        .next (after .wrap
          { input [0x01#8] with ibuf := Memory.write (input [0x01#8]).ibuf 1 0x55#8, res := 7#32, frm := 9#32 }) ∧
      Memory.wf (input [0x01#8]).obuf :=
  ⟨rfl, by decide, exec_after _ _, exec_after _ _, Memory.wf_nil⟩

theorem witness_SameCommandTwiceIsOnce :
    commandCode .wrap = some 0x03#8 ∧ Memory.wf (input [0x03#8, 0x0F#8]).obuf ∧
      exec .wrap (input [0x03#8, 0x0F#8]) = .next (after .wrap (input [0x03#8, 0x0F#8])) :=
  ⟨rfl, Memory.wf_nil, exec_after _ _⟩

theorem witness_NopTouchesOnlyStatus : (0xFFFFFF00#32).setWidth 8 = 0x00#8 := by decide

/-- 65 of 64 bytes; one byte; two bytes. The same boundaries serve CKSUM and WITHCK. -/
theorem witness_CksumResult :
    ilenLen longInput > longInput.bufBytes.val ∧ InputIs [0xF0#8] (input [0xF0#8]) ∧
      InputIs [0xF5#8, 0x00#8] (input [0xF5#8, 0x00#8]) :=
  ⟨by decide, input_is _ (by decide), input_is _ (by decide)⟩

theorem witness_ChecksumLaws : ([0x01#8, 0x02#8] : List Byte).Perm [0x02#8, 0x01#8] := by decide

/-- The longest body that fits: 58 bytes. -/
theorem witness_CksumOfWrappedFrameIsZero :
    ∃ s t u b, InputIs b s ∧ b.length + 6 ≤ s.bufBytes.val ∧ Memory.wf s.obuf ∧ exec .wrap s = .next t ∧ FeedsTo t u :=
  ⟨input (List.replicate 58 0x03#8), _, fed _, List.replicate 58 0x03#8, input_is _ (by decide), by decide,
    Memory.wf_nil, exec_after _ _, fed_feeds _⟩

theorem witness_WithckResult :
    ilenLen longInput > longInput.bufBytes.val ∧ InputIs [0xF7#8] (input [0xF7#8]) ∧
      InputIs [0x85#8, 0xF7#8] (input [0x85#8, 0xF7#8]) ∧ Memory.wf (input [0x85#8, 0xF7#8]).obuf :=
  ⟨by decide, input_is _ (by decide), input_is _ (by decide), Memory.wf_nil⟩

theorem witness_WithckAgainClearsTheSlot :
    ∃ s t u v w x f, InputIs f s ∧ 2 ≤ f.length ∧ f.getD (f.length - 2) 0x00#8 &&& 0x7F#8 = 0x00#8 ∧
      Memory.wf s.obuf ∧ Memory.wf u.obuf ∧ Memory.wf w.obuf ∧ exec .withck s = .next t ∧ FeedsTo t u ∧
      exec .withck u = .next v ∧ FeedsTo v w ∧ exec .withck w = .next x :=
  ⟨input [0x03#8, 0x80#8, 0xF7#8], _, fed _, _, fed _, _, [0x03#8, 0x80#8, 0xF7#8], input_is _ (by decide), by decide,
    by decide, Memory.wf_nil, Memory.wf_nil, Memory.wf_nil, exec_after _ _, fed_feeds _, exec_after _ _, fed_feeds _,
    exec_after _ _⟩

/-- 58 bytes of body fit, 59 do not. -/
theorem witness_WrapResult :
    ilenLen longInput > longInput.bufBytes.val ∧
      (InputIs (List.replicate 59 0x03#8) (input (List.replicate 59 0x03#8)) ∧
        (List.replicate 59 0x03#8).length + 6 > smallBuffers.val) ∧
      InputIs (List.replicate 58 0x03#8) (input (List.replicate 58 0x03#8)) ∧
        (List.replicate 58 0x03#8).length + 6 ≤ smallBuffers.val ∧ Memory.wf (input (List.replicate 58 0x03#8)).obuf :=
  ⟨by decide, ⟨input_is _ (by decide), by decide⟩, input_is _ (by decide), by decide, Memory.wf_nil⟩

/-- Seven bytes and eight. -/
theorem witness_FramedecResult :
    ilenLen longInput > longInput.bufBytes.val ∧
      (InputIs (List.replicate 7 0x01#8) (input (List.replicate 7 0x01#8)) ∧ (List.replicate 7 0x01#8).length < 8) ∧
      InputIs (List.replicate 8 0x01#8) (input (List.replicate 8 0x01#8)) ∧ 8 ≤ (List.replicate 8 0x01#8).length ∧
      Memory.wf (input (List.replicate 8 0x01#8)).obuf :=
  ⟨by decide, ⟨input_is _ (by decide), by decide⟩, input_is _ (by decide), by decide, Memory.wf_nil⟩

/-- The shortest body, two bytes. -/
theorem witness_FramedecAcceptsWhatWrapBuilt :
    ∃ s t u b, InputIs b s ∧ 2 ≤ b.length ∧ (∀ c ∈ b, c.toNat ≤ 0x7F) ∧ b.length + 6 ≤ s.bufBytes.val ∧
      Memory.wf s.obuf ∧ Memory.wf u.obuf ∧ exec .wrap s = .next t ∧ FeedsTo t u :=
  ⟨input [0x03#8, 0x7F#8], _, fed _, [0x03#8, 0x7F#8], input_is _ (by decide), by decide, by decide, by decide,
    Memory.wf_nil, Memory.wf_nil, exec_after _ _, fed_feeds _⟩

/-- 2^14 and 2^14 - 1, in both orders. -/
theorem witness_Enc14hlResult :
    (withArg 16384#32 State.reset).arg.toNat ≥ 16384 ∧ (withArg 16383#32 State.reset).arg.toNat < 16384 ∧
      Memory.wf (withArg 16383#32 State.reset).obuf := by decide

theorem witness_Enc14lhResult :
    (withArg 16384#32 State.reset).arg.toNat ≥ 16384 ∧ (withArg 0#32 State.reset).arg.toNat < 16384 ∧
      Memory.wf (withArg 0#32 State.reset).obuf := by decide

/-- One byte and three; bytes 0x80 and 0x7F. -/
theorem witness_Dec14hlResult :
    ilenLen longInput > longInput.bufBytes.val ∧
      (∀ b ∈ [[0x01#8], [0x01#8, 0x02#8, 0x03#8]],
        ilenLen (input b) ≤ (input b).bufBytes.val ∧ ilenLen (input b) ≠ 2) ∧
      InputIs [0x80#8, 0x7F#8] (input [0x80#8, 0x7F#8]) ∧ (0x80#8).toNat > 0x7F ∧
      InputIs [0x7F#8, 0x7F#8] (input [0x7F#8, 0x7F#8]) ∧ (0x7F#8).toNat ≤ 0x7F :=
  ⟨by decide, by decide, input_is _ (by decide), by decide, input_is _ (by decide), by decide⟩

theorem witness_Dec14lhResult :
    ilenLen longInput > longInput.bufBytes.val ∧
      (∀ b ∈ [[], [0x01#8, 0x02#8, 0x03#8]], ilenLen (input b) ≤ (input b).bufBytes.val ∧ ilenLen (input b) ≠ 2) ∧
      InputIs [0x7F#8, 0x80#8] (input [0x7F#8, 0x80#8]) ∧ (0x80#8).toNat > 0x7F ∧
      InputIs [0x00#8, 0x7F#8] (input [0x00#8, 0x7F#8]) ∧ (0x7F#8).toNat ≤ 0x7F :=
  ⟨by decide, by decide, input_is _ (by decide), by decide, input_is _ (by decide), by decide⟩

/-- Two bytes and four; bytes 0x80 and 0x7F. -/
theorem witness_Dec21Result :
    ilenLen longInput > longInput.bufBytes.val ∧
      (∀ b ∈ [[0x01#8, 0x02#8], [0x01#8, 0x02#8, 0x03#8, 0x04#8]],
        ilenLen (input b) ≤ (input b).bufBytes.val ∧ ilenLen (input b) ≠ 3) ∧
      InputIs [0x7F#8, 0x7F#8, 0x80#8] (input [0x7F#8, 0x7F#8, 0x80#8]) ∧ (0x80#8).toNat > 0x7F ∧
      InputIs [0x7F#8, 0x7F#8, 0x7F#8] (input [0x7F#8, 0x7F#8, 0x7F#8]) ∧ (0x7F#8).toNat ≤ 0x7F :=
  ⟨by decide, by decide, input_is _ (by decide), by decide, input_is _ (by decide), by decide⟩

theorem witness_FourteenBitLaws_decodeOfEncode :
    ∃ s t u, s.arg.toNat ≤ 16383 ∧ Memory.wf s.obuf ∧ exec (encodeCommand .lh) s = .next t ∧ FeedsTo t u :=
  ⟨withArg 16383#32 State.reset, _, fed _, by decide, Memory.wf_nil, exec_after _ _, fed_feeds _⟩

theorem witness_FourteenBitLaws_encodeOfDecode :
    ∃ (s t u : State) (a b : Byte), InputIs [a, b] s ∧ a.toNat ≤ 0x7F ∧ b.toNat ≤ 0x7F ∧ exec (decodeCommand .hl) s = .next t ∧
      u.arg = t.res ∧ Memory.wf u.obuf :=
  ⟨input [0x7F#8, 0x00#8], _, withArg (after .dec14hl (input [0x7F#8, 0x00#8])).res State.reset, 0x7F#8, 0x00#8,
    input_is _ (by decide), by decide, by decide, exec_after _ _, rfl, Memory.wf_nil⟩

theorem witness_FourteenBitLaws_swap :
    ∃ s t u v a b, InputIs [a, b] s ∧ InputIs [b, a] u ∧ a.toNat ≤ 0x7F ∧ b.toNat ≤ 0x7F ∧
      exec .dec14lh s = .next t ∧ exec .dec14hl u = .next v :=
  ⟨input [0x7F#8, 0x00#8], _, input [0x00#8, 0x7F#8], _, 0x7F#8, 0x00#8, input_is _ (by decide), input_is _ (by decide),
    by decide, by decide, exec_after _ _, exec_after _ _⟩

/-- 33 codes and 32. -/
theorem witness_Nameenc32Result :
    ilenLen longInput > longInput.bufBytes.val ∧
      (InputIs (List.replicate 33 0x7F#8) (input (List.replicate 33 0x7F#8)) ∧
        ((List.replicate 33 0x7F#8).filter fun b => decide (b.toNat ≤ 0x7F)).length > 32) ∧
      InputIs (0x80#8 :: List.replicate 32 0x7F#8) (input (0x80#8 :: List.replicate 32 0x7F#8)) ∧
      ((0x80#8 :: List.replicate 32 0x7F#8).filter fun b => decide (b.toNat ≤ 0x7F)).length ≤ 32 ∧
      Memory.wf (input (0x80#8 :: List.replicate 32 0x7F#8)).obuf :=
  ⟨by decide, ⟨input_is _ (by decide), by decide⟩, input_is _ (by decide), by decide, Memory.wf_nil⟩

theorem witness_EncodedNameIsAlways32SafeBytes :
    Memory.wf (input [0x41#8]).obuf ∧ exec .nameenc32 (input [0x41#8]) = .next (after .nameenc32 (input [0x41#8])) ∧
      statusErr (after .nameenc32 (input [0x41#8])).status = false :=
  ⟨Memory.wf_nil, exec_after _ _, by decide⟩

/-- 31 bytes and 33; a byte 0x80 and none. -/
theorem witness_Namedec32Result :
    ilenLen longInput > longInput.bufBytes.val ∧
      (∀ n ∈ [31, 33], ilenLen { input [] with ilen := BitVec.ofNat 32 n } ≤ smallBuffers.val ∧
        ilenLen { input [] with ilen := BitVec.ofNat 32 n } ≠ 32) ∧
      InputIs (0x80#8 :: List.replicate 31 0x41#8) (input (0x80#8 :: List.replicate 31 0x41#8)) ∧
      (∃ b ∈ 0x80#8 :: List.replicate 31 0x41#8, b.toNat > 0x7F) ∧
      InputIs (0x7F#8 :: List.replicate 31 0x20#8) (input (0x7F#8 :: List.replicate 31 0x20#8)) ∧
      (0x7F#8 :: List.replicate 31 0x20#8).length = 32 ∧ ∀ b ∈ 0x7F#8 :: List.replicate 31 0x20#8, b.toNat ≤ 0x7F :=
  ⟨by decide, by decide, input_is _ (by decide), by decide, input_is _ (by decide), by decide, by decide⟩

/-- 32 codes of 0x01 and 0x7F, with the last clause's hypotheses. -/
theorem witness_NameRoundTrip :
    ∃ s t u f, InputIs f s ∧ (f.filter (fun b => decide (b.toNat ≤ 0x7F))).length ≤ 32 ∧ Memory.wf s.obuf ∧
      Memory.wf u.obuf ∧ exec .nameenc32 s = .next t ∧ FeedsTo t u ∧ (∀ b ∈ f, 0x01 ≤ b.toNat ∧ b.toNat ≤ 0x7F) ∧
      ∀ b, f.getLast? = some b → b ∉ whitespace :=
  ⟨input (0x01#8 :: List.replicate 31 0x7F#8), _, fed _, 0x01#8 :: List.replicate 31 0x7F#8, input_is _ (by decide),
    by decide, Memory.wf_nil, Memory.wf_nil, exec_after _ _, fed_feeds _, by decide,
    fun b hb => by obtain rfl : 0x7F#8 = b := by simpa using hb
                   decide⟩

/-- 64 codes pack to 65 bytes, too many; 63 fit in mode 0. -/
theorem witness_PackbFollowsTheWrittenLoop :
    ilenLen longInput > longInput.bufBytes.val ∧
      (InputIs (List.replicate 64 0x41#8) (input (List.replicate 64 0x41#8)) ∧ packedSize 64 false > smallBuffers.val) ∧
      InputIs (List.replicate 63 0xFF#8) (input (List.replicate 63 0xFF#8)) ∧ packedSize 63 false ≤ smallBuffers.val ∧
      Memory.wf (input (List.replicate 63 0xFF#8)).obuf :=
  ⟨by decide, ⟨input_is _ (by decide), by decide⟩, input_is _ (by decide), by decide, Memory.wf_nil⟩

/-- In mode 1, 56 codes pack to exactly 64 bytes and 57 to 66. -/
theorem witness_PackbFollowsTheWrittenLoop_modeOne :
    (InputIs (List.replicate 57 0x41#8) (withModeOne (input (List.replicate 57 0x41#8))) ∧
        packedSize 57 true > smallBuffers.val) ∧
      InputIs (List.replicate 56 0x41#8) (withModeOne (input (List.replicate 56 0x41#8))) ∧
      packedSize 56 true ≤ smallBuffers.val ∧ pkmode (withModeOne (input (List.replicate 56 0x41#8))) = true :=
  ⟨⟨input_is _ (by decide), by decide⟩, input_is _ (by decide), by decide, rfl⟩

/-- In mode 1, 55 codes pack to 63 bytes. -/
theorem witness_PackedBytesHoldTheCodesBits :
    ∃ s t f, InputIs f s ∧ packedSize f.length (pkmode s) ≤ s.bufBytes.val ∧ Memory.wf s.obuf ∧
      exec .packb s = .next t ∧ 62 < packedSize f.length (pkmode s) :=
  ⟨withModeOne (input (List.replicate 55 0x41#8)), _, List.replicate 55 0x41#8, input_is _ (by decide), by decide,
    Memory.wf_nil, exec_after _ _, by decide⟩

/-- Seven codes. -/
theorem witness_PackModesAgreeUpToSevenCodes :
    ∃ s t u v f, InputIs f s ∧ InputIs f u ∧ f.length ≤ 7 ∧ pkmode s = false ∧ pkmode u = true ∧ Memory.wf s.obuf ∧
      Memory.wf u.obuf ∧ exec .packb s = .next t ∧ exec .packb u = .next v ∧ 7 < olenLen t :=
  ⟨input (List.replicate 7 0x41#8), _, withModeOne (input (List.replicate 7 0x41#8)), _, List.replicate 7 0x41#8,
    input_is _ (by decide), input_is _ (by decide), by decide, by decide, by decide, Memory.wf_nil, Memory.wf_nil,
    exec_after _ _, exec_after _ _, by decide⟩

/-- Eight codes in mode 1, and seven in mode 0. -/
theorem witness_UnpackbUndoesPackb :
    ∃ s t u f, InputIs f s ∧ pkmode s = true ∧ packedSize f.length (pkmode s) ≤ s.bufBytes.val ∧ Memory.wf s.obuf ∧
      Memory.wf u.obuf ∧ exec .packb s = .next t ∧ FeedsTo t u ∧ pkmode u = pkmode s ∧
      u.arg = BitVec.ofNat 32 f.length :=
  ⟨withModeOne (input (List.replicate 8 0xFF#8)), _, withArg 8#32 (withModeOne (fed (after .packb (withModeOne (input (List.replicate 8 0xFF#8)))))), List.replicate 8 0xFF#8,
    input_is _ (by decide), by decide, by decide, Memory.wf_nil, Memory.wf_nil, exec_after _ _, fed_feeds (after .packb _),
    rfl, rfl⟩

theorem witness_UnpackbUndoesPackb_modeZero :
    ∃ s t u f, InputIs f s ∧ f.length ≤ 7 ∧ packedSize f.length (pkmode s) ≤ s.bufBytes.val ∧ Memory.wf s.obuf ∧
      Memory.wf u.obuf ∧ exec .packb s = .next t ∧ FeedsTo t u ∧ pkmode u = pkmode s ∧
      u.arg = BitVec.ofNat 32 f.length :=
  ⟨input (List.replicate 7 0xFF#8), _, withArg 7#32 (fed (after .packb (input (List.replicate 7 0xFF#8)))),
    List.replicate 7 0xFF#8, input_is _ (by decide), by decide, by decide, Memory.wf_nil, Memory.wf_nil, exec_after _ _,
    fed_feeds (after .packb _), rfl, rfl⟩

/-- Eight codes, the eighth at index 7. -/
theorem witness_ModeZeroMergesCodes :
    ∃ s t f, InputIs f s ∧ pkmode s = false ∧ f.length + 1 ≤ s.bufBytes.val ∧ Memory.wf s.obuf ∧ 7 * 1 < f.length ∧
      exec .packb s = .next t :=
  ⟨input (List.replicate 8 0x41#8), _, List.replicate 8 0x41#8, input_is _ (by decide), by decide, by decide,
    Memory.wf_nil, by decide, exec_after _ _⟩

theorem witness_ModeZeroMergesCodes_names :
    ∃ s t u v, pkmode s = false ∧ pkmode u = false ∧ Memory.wf s.obuf ∧ Memory.wf u.obuf ∧
      InputIs [0x61#8, 0x61#8, 0x61#8, 0x61#8, 0x61#8, 0x61#8, 0x61#8, 0x40#8] s ∧
      InputIs [0x61#8, 0x61#8, 0x61#8, 0x61#8, 0x61#8, 0x61#8, 0x41#8, 0x40#8] u ∧
      exec .packb s = .next t ∧ exec .packb u = .next v :=
  ⟨input [0x61#8, 0x61#8, 0x61#8, 0x61#8, 0x61#8, 0x61#8, 0x61#8, 0x40#8], _,
    input [0x61#8, 0x61#8, 0x61#8, 0x61#8, 0x61#8, 0x61#8, 0x41#8, 0x40#8], _, by decide, by decide, Memory.wf_nil,
    Memory.wf_nil, input_is _ (by decide), input_is _ (by decide), exec_after _ _, exec_after _ _⟩

/-- 65 codes and 64; a length one short of PackedLength; a byte 0x80 and none, for 64 codes' worth of a shorter name. -/
theorem witness_UnpackbResult :
    ilenLen longInput > longInput.bufBytes.val ∧
      (InputIs [0x00#8] (input [0x00#8]) ∧ (65#32).toNat > smallBuffers.val) ∧
      ((64#32).toNat ≤ smallBuffers.val ∧ ([0x00#8] : List Byte).length ≠ packedSize 64 false) ∧
      InputIs [0x80#8, 0x00#8] (withArg 1#32 (input [0x80#8, 0x00#8])) ∧ packedSize 1 false = 2 ∧
      (∃ b ∈ [0x80#8, 0x00#8], b.toNat > 0x7F) ∧
      InputIs (List.replicate 64 0x7F#8) (withArg 63#32 (input (List.replicate 64 0x7F#8))) ∧
      (List.replicate 64 0x7F#8).length = packedSize 63 false ∧ ∀ b ∈ List.replicate 64 0x7F#8, b.toNat ≤ 0x7F :=
  ⟨by decide, ⟨input_is _ (by decide), by decide⟩, by decide, input_is _ (by decide), by decide, by decide,
    input_is _ (by decide), by decide, by decide⟩

/-- In mode 1, 8 codes need 10 bytes, as in V-UP-11, and 9 are refused, as in V-UP-12. -/
theorem witness_UnpackbResult_modeOne :
    InputIs (List.replicate 9 0x00#8) (withArg 8#32 (withModeOne (input (List.replicate 9 0x00#8)))) ∧
      (List.replicate 9 0x00#8).length ≠ packedSize 8 true ∧
      InputIs (List.replicate 10 0x00#8) (withArg 8#32 (withModeOne (input (List.replicate 10 0x00#8)))) ∧
      (List.replicate 10 0x00#8).length = packedSize 8 true :=
  ⟨input_is _ (by decide), by decide, input_is _ (by decide), by decide⟩

end Sys2Proof.Tests
end

section
/-! What one step can do, said once: the effect of an access on the block, and the events of the host. Every
invariant below is a case analysis over these two. -/

namespace Sys2Proof.Machine

/-- The effect of an executed access on the state: a host access touches its own location or ends in an access error;
a command stores its code and then takes one fault, or performs its writes and completes. -/
inductive Effect (s : State) : State → Prop
  | ignored : Effect s s
  | accessError (r : Response) : Effect s (accessErrorEntry r s)
  | readValue (r : Response) : Effect s (giveBack r s)
  | registerStore (r : Reg) (v : Word) (hr : r ≠ .cmd) : Effect s (writeReg r v s)
  | inputStore (k : Nat) (v : Byte) (hk : k < s.bufBytes.val) : Effect s { s with ibuf := Memory.write s.ibuf k v }
  | commandFault (code : Byte) (f : CmdFault) : Effect s (faultEntry f (storeCode code s))
  | commandDone (code : Byte) (i : Instr) (w : Writes) (hw : commandResult i s = .ok w) :
      Effect s (complete (perform w (storeCode code s)))

theorem effect_finish (code : Byte) (i : Instr) (s : State) :
    Effect s (finish (commandResult i s) (storeCode code s)) := by
  cases hr : commandResult i s with
  | error f => exact .commandFault code f
  | ok w => exact .commandDone code i w hr

theorem effect_execWr {a : Offset} {v : Word} {s t : State} (h : execWr a v s = .next t) : Effect s t := by
  by_cases ha : a = 0x0000#16
  · subst ha
    cases hd : decodeCode (v.setWidth 8) with
    | ok i =>
      rw [execWr_command hd, exec_command (commandCode_of_decodeCode hd)] at h
      cases h
      exact effect_finish _ i s
    | error r =>
      rw [execWr_reserved hd] at h
      cases h
      exact .commandFault _ .illegal
  · rcases execWr_cases ha v s with he | ⟨r, hr, -, he⟩ <;> cases he.symm.trans h
    · exact .accessError _
    · exact .registerStore r v hr

/-- Every instruction has one of the effects. -/
theorem effect_exec {i : Instr} {s t : State} (h : exec i s = .next t) : Effect s t := by
  cases hc : commandCode i with
  | some code =>
    cases (exec_command hc s).symm.trans h
    exact effect_finish code i s
  | none =>
    cases i <;> simp only [commandCode, reduceCtorEq] at hc
    case wr a v => exact effect_execWr h
    case rd a =>
      rcases execRd_cases a s with ⟨r, he⟩ | he <;> cases he.symm.trans h
      · exact .readValue r
      · exact .accessError _
    case rdb a =>
      rcases execRdb_cases a s with ⟨r, he⟩ | he <;> cases he.symm.trans h
      · exact .readValue r
      · exact .accessError _
    case wrb a v =>
      rcases execWrb_cases a v s with ⟨k, hk, he⟩ | he | he <;> cases he.symm.trans h
      · exact .inputStore k v hk
      · exact .ignored
      · exact .accessError _

/-- What a step to a next state does: nothing, a reset event, or the effect of the access at the head of `pending`. -/
theorem step_cases {s t : State} (h : step s = .next t) :
    t = s ∨ (s.pending.head? = some .assertReset ∧ t = assertReset (takeEvent s)) ∨
      t = releaseReset (takeEvent s) ∨ Effect (takeEvent s) t := by
  simp only [step] at h
  split at h
  · cases h; exact .inl rfl
  · split at h
    · cases h
    · exact .inr (.inr (.inr (effect_exec h)))
  · next hp => cases h; exact .inr (.inl ⟨by rw [hp]; rfl, rfl⟩)
  · cases h; exact .inr (.inr (.inl rfl))

/-! ## STATUS after an access error -/

@[simp] theorem statusDone_or_accErr (w : Word) : statusDone (w ||| 0x00000008#32) = statusDone w := by
  simp [statusDone]

@[simp] theorem statusErr_or_accErr (w : Word) : statusErr (w ||| 0x00000008#32) = statusErr w := by
  simp [statusErr]

@[simp] theorem statusFaultSeen_or_accErr (w : Word) :
    statusFaultSeen (w ||| 0x00000008#32) = statusFaultSeen w := by
  simp [statusFaultSeen]

@[simp] theorem statusAccErr_or_accErr (w : Word) : statusAccErr (w ||| 0x00000008#32) = true := by
  simp [statusAccErr]

@[simp] theorem statusEcode_or_accErr (w : Word) : statusEcode (w ||| 0x00000008#32) = statusEcode w := by
  simp [statusEcode, BitVec.extractLsb'_or]

theorem writeReg_status_eq (r : Reg) (v : Word) (s : State) : (writeReg r v s).status = s.status := by
  cases r <;> rfl

/-! ## The sticky bits -/

/-- No access, and so no command, clears FAULTSEEN or ACCERR (10_state.md R24). -/
theorem effect_keeps_sticky {s t : State} (h : Effect s t) :
    (statusFaultSeen s.status = true → statusFaultSeen t.status = true) ∧
      (statusAccErr s.status = true → statusAccErr t.status = true) := by
  cases h with
  | ignored => exact ⟨id, id⟩
  | accessError r => simp
  | readValue r => exact ⟨id, id⟩
  | registerStore r v hr => simp [writeReg_status_eq]
  | inputStore k v hk => exact ⟨id, id⟩
  | commandFault code f => simp +contextual [statusFaultSeen_packStatus, statusAccErr_packStatus]
  | commandDone code i w hw => simp [statusFaultSeen_packStatus, statusAccErr_packStatus]

/-- Settles O11: a step that is no assertion of reset keeps STATUS, or has an access's effect. -/
theorem onlyResetClearsTheStickyBits : Obligations.OnlyResetClearsTheStickyBits := by
  intro s t h hp
  rcases step_cases h with rfl | ⟨hr, -⟩ | rfl | he
  · exact ⟨id, id⟩
  · exact absurd hr hp
  · exact ⟨id, id⟩
  · simpa only [takeEvent_status] using effect_keeps_sticky he

end Sys2Proof.Machine
end

section
/-! What a completed command writes, command by command, and what every completed command's writes have in common. -/

namespace Sys2Proof.Machine

/-- The writes of a completed command (41_envelope.md, 42_int7.md, 43_names.md); NOP and the host accesses have none. -/
def commandWrites (i : Instr) (s : State) : Writes :=
  match i with
  | .cksum => { res := some (zext32 (checksum (inputBytes s))) }
  | .withck => { out := some (withChecksum (inputBytes s)), res := some (zext32 (checksum (inputBytes s))) }
  | .wrap => { out := some (wrapFrame (inputBytes s)), res := some (zext32 (wrapChecksum (inputBytes s))) }
  | .framedec =>
    if ilenLen s < 8 then { res := some 0#32, frm := some 0#32, out := some [] }
    else { res := some (frameFlags (inputBytes s)), frm := some (frameFields (inputBytes s)),
           out := some (framePayload (inputBytes s)) }
  | .enc14hl => { out := some [high7 s.arg, low7 s.arg], res := some s.arg }
  | .enc14lh => { out := some [low7 s.arg, high7 s.arg], res := some s.arg }
  | .dec14hl => { res := some (join14 (inputByte s 0) (inputByte s 1)) }
  | .dec14lh => { res := some (join14 (inputByte s 1) (inputByte s 0)) }
  | .dec21 => { res := some (join21 (inputByte s 0) (inputByte s 1) (inputByte s 2)) }
  | .nameenc32 =>
    { out := some (padName (keptCodes (inputBytes s))), res := some (lengthWord (keptCodes (inputBytes s)).length) }
  | .namedec32 =>
    { out := some (windowName (inputBytes s)), res := some (lengthWord (windowName (inputBytes s)).length) }
  | .packb =>
    { out := some (packName (pkmode s) (inputBytes s)),
      res := some (lengthWord (packName (pkmode s) (inputBytes s)).length) }
  | .unpackb =>
    { out := some (unpackName (pkmode s) (argValue s) (inputBytes s)), res := some (lengthWord (argValue s)) }
  | .nop | .rd _ | .wr _ _ | .rdb _ | .wrb _ _ => {}

/-- A command that completes makes exactly its writes. -/
theorem commandResult_ok_eq {i : Instr} {s : State} {w : Writes} (h : commandResult i s = .ok w) :
    w = commandWrites i s := by
  cases i <;>
    simp only [commandResult, checkedBody, nopBody, cksumBody, withckBody, wrapBody, framedecBody, enc14hlBody,
      enc14lhBody, dec14hlBody, dec14lhBody, dec21Body, nameenc32Body, namedec32Body, packbBody, unpackbBody] at h
  case framedec =>
    split at h
    · cases h
    · split at h
      all_goals
        next hl =>
          cases h
          simp only [commandWrites, hl, if_true, if_false]
  all_goals
    (repeat' split at h)
    all_goals cases h
    rfl

/-- Only FRAMEDEC writes FRM (10_state.md R30). -/
theorem commandWrites_frm {i : Instr} (h : i ≠ .framedec) (s : State) : (commandWrites i s).frm = none := by
  cases i
  case framedec => exact absurd rfl h
  all_goals rfl

/-- FRAMEDEC's fields leave bit 31 of FRM 0: the expected checksum has 7 bits (41_envelope.md R102, R120). -/
theorem frameFields_reserved (f : List Byte) : frameFields f &&& ~~~ definedBits .frm = 0#32 := by
  have h7 : (expectedChecksum f).getLsbD 7 = false := by simp [expectedChecksum]
  have h31 : (frameFields f).getLsbD 31 = false := by
    simpa only [frameFields, packFrm, BitVec.getLsbD_append, Nat.reduceLT, Nat.reduceSub, if_false] using h7
  rw [show ~~~ definedBits .frm = BitVec.twoPow 32 31 by decide, BitVec.and_twoPow, h31]
  rfl

/-- What a command writes to FRM has its reserved bit 0. -/
theorem commandResult_frm_reserved {i : Instr} {s : State} {w : Writes} {v : Word} (hr : commandResult i s = .ok w)
    (hw : w.frm = some v) : v &&& ~~~ definedBits .frm = 0#32 := by
  rw [commandResult_ok_eq hr] at hw
  by_cases hi : i = .framedec
  · subst hi
    simp only [commandWrites] at hw
    split at hw <;> cases hw
    · decide
    · exact frameFields_reserved _
  · rw [commandWrites_frm hi] at hw
    cases hw

end Sys2Proof.Machine
end

section
/-! The invariant of the block's state: each of its five parts survives every effect of an access, and the whole of it
every event of the host. -/

namespace Sys2Proof.Machine

/-! ## Canonical buffers -/

/-- Performing a command's writes keeps OBUF canonical and inside the buffer. -/
theorem perform_obuf_wf {i : Instr} {s : State} {w : Writes} (hw : commandResult i s = .ok w) (code : Byte)
    (hwf : Memory.wf s.obuf) (hb : Memory.below s.obuf s.bufBytes.val) :
    Memory.wf (perform w (storeCode code s)).obuf ∧ Memory.below (perform w (storeCode code s)).obuf s.bufBytes.val := by
  cases ho : w.out with
  | none =>
    simp only [perform_obuf, ho]
    exact ⟨hwf, hb⟩
  | some out =>
    have hfit : 0 + out.length ≤ s.bufBytes.val := by simpa using commandResult_fits hw ho
    simp only [perform_obuf, ho]
    exact ⟨Memory.wf_writeBytes hwf 0 out, Memory.below_writeBytes hb hfit⟩

theorem effect_keeps_buffersWf {s t : State} (h : Effect s t) (hs : BuffersWf s) : BuffersWf t := by
  obtain ⟨hiwf, hib, howf, hob⟩ := id hs
  cases h with
  | ignored => exact hs
  | accessError r => exact hs
  | readValue r => exact hs
  | registerStore r v hr => cases r <;> exact hs
  | inputStore k v hk => exact ⟨Memory.wf_write hiwf k v, Memory.below_write hib hk v, howf, hob⟩
  | commandFault code f => exact hs
  | commandDone code i w hw => exact ⟨hiwf, hib, perform_obuf_wf hw code howf hob⟩

/-! ## Reserved bits -/

/-- A masked value has no bit outside its mask. -/
theorem and_and_not_self (v d : Word) : v &&& d &&& ~~~ d = 0#32 := by
  simp [BitVec.and_assoc]

theorem and_not_eq_zero_of_and_eq {v d : Word} (h : v &&& d = v) : v &&& ~~~ d = 0#32 := by
  rw [← h, and_and_not_self]

theorem code_reserved (code : Byte) : code.setWidth 32 &&& ~~~ definedBits .cmd = 0#32 := by
  revert code
  decide

theorem packStatus_reserved_zero (d e f a : Bool) (c : Byte) :
    packStatus d e f a c &&& ~~~ definedBits .status = 0#32 :=
  and_not_eq_zero_of_and_eq (packStatus_reserved d e f a c)

theorem lengthWord_reserved_zero (n : Nat) : lengthWord n &&& ~~~ definedBits .olen = 0#32 :=
  and_not_eq_zero_of_and_eq (lengthWord_reserved n)

theorem or_accErr_reserved {w : Word} (h : w &&& ~~~ definedBits .status = 0#32) :
    (w ||| 0x00000008#32) &&& ~~~ definedBits .status = 0#32 := by
  rw [BitVec.and_or_distrib_right, h]
  decide

/-- ARG and RES have no reserved bits (10_state.md R25, R26). -/
theorem reservedZero_iff {s : State} : ReservedZero s ↔
    s.cmd &&& ~~~ definedBits .cmd = 0#32 ∧ s.status &&& ~~~ definedBits .status = 0#32 ∧
      s.cfg &&& ~~~ definedBits .cfg = 0#32 ∧ s.ilen &&& ~~~ definedBits .ilen = 0#32 ∧
      s.olen &&& ~~~ definedBits .olen = 0#32 ∧ s.frm &&& ~~~ definedBits .frm = 0#32 := by
  refine ⟨fun h => ⟨h .cmd, h .status, h .cfg, h .ilen, h .olen, h .frm⟩, ?_⟩
  rintro ⟨hcmd, hstatus, hcfg, hilen, holen, hfrm⟩ r
  cases r
  case cmd => exact hcmd
  case status => exact hstatus
  case arg => exact BitVec.and_zero
  case res => exact BitVec.and_zero
  case cfg => exact hcfg
  case ilen => exact hilen
  case olen => exact holen
  case frm => exact hfrm

/-- Performing a command's writes keeps the reserved bits of OLEN and FRM 0. -/
theorem perform_reserved {i : Instr} {s : State} {w : Writes} (hw : commandResult i s = .ok w) (code : Byte)
    (holen : s.olen &&& ~~~ definedBits .olen = 0#32) (hfrm : s.frm &&& ~~~ definedBits .frm = 0#32) :
    (perform w (storeCode code s)).olen &&& ~~~ definedBits .olen = 0#32 ∧
      (perform w (storeCode code s)).frm &&& ~~~ definedBits .frm = 0#32 := by
  simp only [perform_olen, perform_frm]
  constructor
  · cases w.out with
    | none => exact holen
    | some out => exact lengthWord_reserved_zero out.length
  · cases hf : w.frm with
    | none => exact hfrm
    | some v => exact commandResult_frm_reserved hw hf

theorem effect_keeps_reservedZero {s t : State} (h : Effect s t) (hs : ReservedZero s) : ReservedZero t := by
  obtain ⟨hcmd, hstatus, hcfg, hilen, holen, hfrm⟩ := reservedZero_iff.1 hs
  cases h with
  | ignored => exact hs
  | accessError r => exact reservedZero_iff.2 ⟨hcmd, or_accErr_reserved hstatus, hcfg, hilen, holen, hfrm⟩
  | readValue r => exact reservedZero_iff.2 ⟨hcmd, hstatus, hcfg, hilen, holen, hfrm⟩
  | registerStore r v hr =>
    cases r
    case cmd => exact absurd rfl hr
    case arg => exact reservedZero_iff.2 ⟨hcmd, hstatus, hcfg, hilen, holen, hfrm⟩
    case cfg => exact reservedZero_iff.2 ⟨hcmd, hstatus, and_and_not_self .., hilen, holen, hfrm⟩
    case ilen => exact reservedZero_iff.2 ⟨hcmd, hstatus, hcfg, and_and_not_self .., holen, hfrm⟩
    all_goals exact hs
  | inputStore k v hk => exact reservedZero_iff.2 ⟨hcmd, hstatus, hcfg, hilen, holen, hfrm⟩
  | commandFault code f =>
    exact reservedZero_iff.2 ⟨code_reserved code, packStatus_reserved_zero .., hcfg, hilen, holen, hfrm⟩
  | commandDone code i w hw =>
    exact reservedZero_iff.2
      ⟨code_reserved code, packStatus_reserved_zero .., hcfg, hilen, perform_reserved hw code holen hfrm⟩

/-! ## STATUS -/

theorem faultEntry_statusLegal (f : CmdFault) (s : State) : StatusLegal (faultEntry f s) := by
  simp only [StatusLegal, faultEntry_status, statusDone_packStatus, statusErr_packStatus, statusEcode_packStatus,
    statusFaultSeen_packStatus]
  cases f <;> simp [faultCode, faultClass1]

theorem complete_statusLegal (s : State) : StatusLegal (complete s) := by
  simp [StatusLegal, statusDone_packStatus, statusErr_packStatus, statusEcode_packStatus]

theorem effect_keeps_statusLegal {s t : State} (h : Effect s t) (hs : StatusLegal s) : StatusLegal t := by
  cases h with
  | ignored => exact hs
  | accessError r => simpa [StatusLegal] using hs
  | readValue r => exact hs
  | registerStore r v hr => cases r <;> exact hs
  | inputStore k v hk => exact hs
  | commandFault code f => exact faultEntry_statusLegal f _
  | commandDone code i w hw => exact complete_statusLegal _

/-! ## Outputs until the first command -/

theorem effect_keeps_freshUntilCommand {s t : State} (h : Effect s t) (hs : FreshUntilCommand s) :
    FreshUntilCommand t := by
  cases h with
  | ignored => exact hs
  | accessError r => simpa [FreshUntilCommand] using hs
  | readValue r => exact hs
  | registerStore r v hr =>
    cases r
    case cmd => exact absurd rfl hr
    all_goals exact hs
  | inputStore k v hk => exact hs
  | commandFault code f =>
    intro _ he
    simp [statusErr_packStatus] at he
  | commandDone code i w hw =>
    intro hd _
    simp [statusDone_packStatus] at hd

/-! ## OLEN -/

theorem effect_keeps_outputFits {s t : State} (h : Effect s t) (hs : OutputFits s) : OutputFits t := by
  cases h with
  | ignored => exact hs
  | accessError r => exact hs
  | readValue r => exact hs
  | registerStore r v hr => cases r <;> exact hs
  | inputStore k v hk => exact hs
  | commandFault code f => exact hs
  | commandDone code i w hw =>
    cases ho : w.out with
    | none => simpa [OutputFits, olenLen, ho] using hs
    | some out =>
      have hfit : out.length ≤ s.bufBytes.val := commandResult_fits hw ho
      have hmax : s.bufBytes.val ≤ 4096 := s.bufBytes.2.2
      have hlen : ((lengthWord out.length).extractLsb' 0 16).toNat = out.length := extract_lengthWord (by omega)
      simpa [OutputFits, olenLen, ho, hlen] using hfit

/-! ## The whole invariant -/

theorem effect_keeps_inv {s t : State} (h : Effect s t) (hs : Inv s) : Inv t := by
  obtain ⟨hbuf, hres, hstatus, hfresh, hfits⟩ := hs
  exact ⟨effect_keeps_buffersWf h hbuf, effect_keeps_reservedZero h hres, effect_keeps_statusLegal h hstatus,
    effect_keeps_freshUntilCommand h hfresh, effect_keeps_outputFits h hfits⟩

/-- A block whose registers are all 0 and whose buffers are empty meets the invariant. -/
theorem inv_of_cleared {s : State} (hreg : ∀ r, rawReg r s = 0#32) (hi : s.ibuf = []) (ho : s.obuf = []) : Inv s := by
  have hcmd : s.cmd = 0#32 := hreg .cmd
  have hstatus : s.status = 0#32 := hreg .status
  have hres : s.res = 0#32 := hreg .res
  have holen : s.olen = 0#32 := hreg .olen
  have hfrm : s.frm = 0#32 := hreg .frm
  refine ⟨?_, fun r => ?_, ?_, fun _ _ => ⟨hcmd, hres, holen, hfrm, ho, ?_⟩, ?_⟩
  · rw [BuffersWf, hi, ho]
    exact ⟨Memory.wf_nil, by simp, Memory.wf_nil, by simp⟩
  · rw [hreg r, BitVec.zero_and]
  · rw [StatusLegal, hstatus]
    decide
  · rw [hstatus]
    rfl
  · simp [OutputFits, olenLen, holen]

/-- Taking an event off the list and releasing reset touch nothing the invariant is about (assumptions 1, 7). -/
theorem inv_takeEvent {s : State} (hs : Inv s) : Inv (takeEvent s) := by
  obtain ⟨hbuf, hres, hrest⟩ := hs
  exact ⟨hbuf, reservedZero_iff.2 (reservedZero_iff.1 hres), hrest⟩

theorem inv_releaseReset {s : State} (hs : Inv s) : Inv (releaseReset s) := by
  obtain ⟨hbuf, hres, hrest⟩ := hs
  exact ⟨hbuf, reservedZero_iff.2 (reservedZero_iff.1 hres), hrest⟩

theorem inv_assertReset (s : State) : Inv (assertReset s) :=
  inv_of_cleared (fun r => by cases r <;> rfl) rfl rfl

/-- Settles O12: reset establishes the invariant anew, and every other step keeps each of its parts. -/
theorem stepKeepsTheInvariant : Obligations.StepKeepsTheInvariant := by
  intro s t hs h
  rcases step_cases h with rfl | ⟨-, rfl⟩ | rfl | he
  · exact hs
  · exact inv_assertReset _
  · exact inv_releaseReset (inv_takeEvent hs)
  · exact effect_keeps_inv he (inv_takeEvent hs)

theorem rawReg_reset (r : Reg) : rawReg r State.reset = 0#32 := by cases r <;> rfl

/-- Settles O13: the reset state is a cleared block. -/
theorem resetStateMeetsTheInvariant : Obligations.ResetStateMeetsTheInvariant :=
  inv_of_cleared rawReg_reset rfl rfl

/-- Settles O10: every register is 0, and an empty buffer reads 0x00 everywhere. -/
theorem resetStateIsAllZero : Obligations.ResetStateIsAllZero :=
  ⟨rawReg_reset, by decide, by decide, by decide, by decide, by decide, by decide, Memory.read_nil, Memory.read_nil⟩

end Sys2Proof.Machine
end

section
/-! What a command leaves alone, and what its result depends on. -/

namespace Sys2Proof.Machine

/-! ## The read-only registers -/

/-- WR at a register other than CMD stores what the register takes (20_memory.md R54). -/
theorem exec_wr_regOffset {r : Reg} (hr : r ≠ .cmd) (v : Word) (s : State) :
    exec (.wr (regOffset r) v) s = .next (writeReg r v s) := by
  simp only [exec, execWr, regAt_regOffset, hr, if_false]

/-- Settles O17: a read-only register takes nothing from a write. -/
theorem wrToReadOnlyRegisterIsIgnored : Obligations.WrToReadOnlyRegisterIsIgnored := by
  intro s v
  exact ⟨exec_wr_regOffset (r := .status) (by decide) v s, exec_wr_regOffset (r := .res) (by decide) v s,
    exec_wr_regOffset (r := .olen) (by decide) v s, exec_wr_regOffset (r := .frm) (by decide) v s⟩

/-! ## The frame of the commands -/

/-- These commands write no byte sequence (10_state.md R29, R32). -/
theorem commandWrites_out {i : Instr} (h : i ∈ [Instr.nop, .cksum, .dec14hl, .dec14lh, .dec21]) (s : State) :
    (commandWrites i s).out = none := by
  simp only [List.mem_cons, List.not_mem_nil, or_false] at h
  rcases h with rfl | rfl | rfl | rfl | rfl <;> rfl

/-- A completing command changes no OBUF byte at or above the OLEN it leaves (10_state.md R32). -/
theorem perform_obuf_above {i : Instr} {s : State} {w : Writes} (hw : commandResult i s = .ok w) (code : Byte)
    (hwf : Memory.wf s.obuf) {k : Nat} (hk : olenLen (complete (perform w (storeCode code s))) ≤ k) :
    Memory.read (complete (perform w (storeCode code s))).obuf k = Memory.read s.obuf k := by
  cases ho : w.out with
  | none => rw [(keepsOut_perform ho).2]
  | some out =>
    have hfit : out.length ≤ s.bufBytes.val := commandResult_fits hw ho
    have hmax : s.bufBytes.val ≤ 4096 := s.bufBytes.2.2
    have hlen : out.length < 65536 := by omega
    have hk' : ¬ k < out.length := by
      simpa [olenLen, ho, extract_lengthWord hlen] using hk
    rw [(writesOut_perform hwf ho hlen).2 k, if_neg hk']

/-- Settles O25: a faulting command keeps every output, and a completing one makes only its own writes. -/
theorem commandsWriteOnlyTheirOutputs : Obligations.CommandsWriteOnlyTheirOutputs := by
  intro i code s t hc hwf h
  cases (exec_command hc s).symm.trans h
  cases hr : commandResult i s with
  | error f =>
    obtain ⟨-, -, -, -, -, -, -, hops, hres, hfrm, holen, hobuf⟩ := faultsWith_faultEntry code f s
    exact ⟨hops, fun _ => hfrm, fun _ => hres, fun _ => ⟨holen, hobuf⟩, fun k _ => by rw [finish_error, hobuf]⟩
  | ok w =>
    obtain ⟨-, -, -, -, -, -, -, hops⟩ := completes_perform code w s
    have hw : w = commandWrites i s := commandResult_ok_eq hr
    refine ⟨hops, fun hi => ?_, fun hi => ?_, fun hi => ?_, fun k hk => perform_obuf_above hr code hwf hk⟩
    · simp [hw, commandWrites_frm hi]
    · subst hi
      simp [hw, commandWrites]
    · exact keepsOut_perform (hw ▸ commandWrites_out hi s)

/-! ## E_BOUNDS -/

/-- A command that reads IBUF ends in E_BOUNDS when ILEN.LEN > BUF_BYTES (40_control.md R90). -/
theorem commandResult_bounds {i : Instr} {code : Byte} {s : State} (hc : commandCode i = some code)
    (hi : i ∉ [Instr.nop, .enc14hl, .enc14lh]) (h : ilenLen s > s.bufBytes.val) :
    commandResult i s = .error .bounds := by
  cases i <;> simp only [commandCode, reduceCtorEq] at hc
  case nop => simp at hi
  case enc14hl => simp at hi
  case enc14lh => simp at hi
  all_goals exact checkedBody_bounds h

/-- Settles O26: RunCommand checks ILEN.LEN before the command's body. -/
theorem longInputFaultsBounds : Obligations.LongInputFaultsBounds := by
  intro i code s hc hi h
  exact exec_command_error hc (commandResult_bounds hc hi h)

/-! ## The operands -/

/-- Two states of one machine with the same operands: ILEN, ARG, CFG and `IBUF[0..ILEN.LEN)` (30_encoding.md R71). -/
structure SameOperands (s u : State) : Prop where
  ilen : u.ilen = s.ilen
  arg : u.arg = s.arg
  cfg : u.cfg = s.cfg
  bufBytes : u.bufBytes = s.bufBytes
  ibuf : ∀ k, k < ilenLen s → Memory.read u.ibuf k = Memory.read s.ibuf k

namespace SameOperands

variable {s u : State} (h : SameOperands s u)
include h

theorem ilenLen_eq : ilenLen u = ilenLen s := by rw [ilenLen, ilenLen, h.ilen]

theorem argValue_eq : argValue u = argValue s := by rw [argValue, argValue, h.arg]

theorem pkmode_eq : pkmode u = pkmode s := by rw [pkmode, pkmode, h.cfg]

theorem inputByte_eq {k : Nat} (hk : k < ilenLen s) : inputByte u k = inputByte s k := h.ibuf k hk

theorem inputBytes_eq : inputBytes u = inputBytes s := by
  rw [inputBytes, inputBytes, h.ilenLen_eq]
  refine List.map_congr_left fun k hk => ?_
  rw [Nat.zero_add]
  exact h.ibuf k (List.mem_range.1 hk)

theorem checkedBody_congr {body : State → Except CmdFault Writes} (hb : body u = body s) :
    checkedBody body u = checkedBody body s := by
  rw [checkedBody, checkedBody, h.ilenLen_eq, h.bufBytes, hb]

/-- Behind a check that ILEN.LEN is `n`, what is left need only agree on inputs of that length. -/
theorem lengthChecked_congr {n : Nat} {x y : Except CmdFault Writes} (hxy : ilenLen s = n → x = y) :
    (if ilenLen u ≠ n then .error .length else x) = if ilenLen s ≠ n then .error .length else y := by
  rw [h.ilenLen_eq]
  exact ite_congr rfl (fun _ => rfl) fun hn => hxy (not_not.1 hn)

/-- A command's result is a function of its operands. -/
theorem commandResult_congr (i : Instr) : commandResult i u = commandResult i s := by
  cases i
  case dec14hl | dec14lh =>
    refine h.checkedBody_congr (h.lengthChecked_congr fun hl => ?_)
    rw [h.inputByte_eq (k := 0) (by omega), h.inputByte_eq (k := 1) (by omega)]
  case dec21 =>
    refine h.checkedBody_congr (h.lengthChecked_congr fun hl => ?_)
    rw [h.inputByte_eq (k := 0) (by omega), h.inputByte_eq (k := 1) (by omega), h.inputByte_eq (k := 2) (by omega)]
  all_goals
    simp only [commandResult, checkedBody, nopBody, cksumBody, withckBody, wrapBody, framedecBody, enc14hlBody,
      enc14lhBody, nameenc32Body, namedec32Body, packbBody, unpackbBody, h.ilenLen_eq, h.inputBytes_eq, h.argValue_eq,
      h.pkmode_eq, h.arg, h.bufBytes]

end SameOperands

/-- One command's writes, performed on two states, leave an OBUF byte alone in both or make it the same in both. -/
theorem perform_obuf_alike (w : Writes) (code : Byte) {s u : State} (hs : Memory.wf s.obuf) (hu : Memory.wf u.obuf)
    (k : Nat) :
    (Memory.read (complete (perform w (storeCode code u))).obuf k = Memory.read u.obuf k ∧
        Memory.read (complete (perform w (storeCode code s))).obuf k = Memory.read s.obuf k) ∨
      Memory.read (complete (perform w (storeCode code u))).obuf k =
        Memory.read (complete (perform w (storeCode code s))).obuf k := by
  cases ho : w.out with
  | none => simp [ho]
  | some out =>
    simp only [complete_obuf, perform_obuf, ho, storeCode_obuf, Memory.read_writeBytes hs, Memory.read_writeBytes hu]
    split
    · exact .inr rfl
    · exact .inl ⟨rfl, rfl⟩

/-- Settles O28: both states finish with one result, so they take the same fault or make the same writes. -/
theorem commandsReadOnlyTheirOperands : Obligations.CommandsReadOnlyTheirOperands := by
  intro i code s u s' u' hc hilen harg hcfg hbuf hibuf hws hwu hs hu
  have hop : SameOperands s u := ⟨hilen, harg, hcfg, hbuf, hibuf⟩
  cases (exec_command hc s).symm.trans hs
  cases (exec_command hc u).symm.trans hu
  rw [hop.commandResult_congr i]
  cases hr : commandResult i s with
  | error f =>
    refine ⟨rfl, ?_, ?_, ?_, .inl ⟨rfl, rfl⟩, .inl ⟨rfl, rfl⟩, .inl ⟨rfl, rfl⟩, fun k => .inl ⟨rfl, rfl⟩⟩
    · simp [statusDone_packStatus]
    · simp [statusErr_packStatus]
    · simp [statusEcode_packStatus]
  | ok w =>
    refine ⟨rfl, ?_, ?_, ?_, ?_, ?_, ?_, fun k => perform_obuf_alike w code hws hwu k⟩
    · simp [statusDone_packStatus]
    · simp [statusErr_packStatus]
    · simp [statusEcode_packStatus]
    · cases hres : w.res <;> simp [hres]
    · cases hfrm : w.frm <;> simp [hfrm]
    · cases hout : w.out <;> simp [hout]

end Sys2Proof.Machine
end

section
/-! Host accesses at a location: what each of the four does at a register, at a byte of either buffer, and everywhere
else; and so what an access that is no command can touch. -/

namespace Sys2Proof.Machine

/-! ## Steps -/

/-- Settles O6: the step takes the access off the list and runs it. -/
theorem stepRunsTheDecodedAccess : Obligations.StepRunsTheDecodedAccess := by
  intro s x rest hp hr
  have htake : takeEvent s = { s with pending := rest } := by rw [takeEvent, hp, List.tail_cons]
  simp only [step, hp, hr, htake, Bool.false_eq_true, if_false]

/-! ## The registers -/

/-- RD at a register's offset gives its defined bits back (20_memory.md R54). -/
theorem exec_rd_regOffset (r : Reg) (s : State) :
    exec (.rd (regOffset r)) s = .next (giveBack (.word (readReg r s)) s) := by
  simp only [exec, execRd, regAt_regOffset]

/-- ARG and RES have no reserved bits (10_state.md R25, R26). -/
theorem and_definedBits_arg (v : Word) : v &&& definedBits .arg = v := BitVec.and_allOnes

theorem and_definedBits_res (v : Word) : v &&& definedBits .res = v := BitVec.and_allOnes

/-- Settles O15: RD at each of the eight offsets gives its register back. -/
theorem rdReturnsTheRegister : Obligations.RdReturnsTheRegister := by
  intro s
  have harg := exec_rd_regOffset .arg s
  have hres := exec_rd_regOffset .res s
  rw [readReg, and_definedBits_arg] at harg
  rw [readReg, and_definedBits_res] at hres
  exact ⟨exec_rd_regOffset .cmd s, exec_rd_regOffset .status s, harg, hres, exec_rd_regOffset .cfg s,
    exec_rd_regOffset .ilen s, exec_rd_regOffset .olen s, exec_rd_regOffset .frm s⟩

/-- Settles O16: WR at each of the three offsets stores into its register. -/
theorem wrStoresTheDefinedFields : Obligations.WrStoresTheDefinedFields := by
  intro s v
  have harg := exec_wr_regOffset (r := .arg) (by decide) v s
  rw [writeReg_arg, and_definedBits_arg] at harg
  exact ⟨harg, exec_wr_regOffset (r := .cfg) (by decide) v s, exec_wr_regOffset (r := .ilen) (by decide) v s⟩

/-! ## The buffers -/

section
variable {s : State} {k : Nat} (hk : k < s.bufBytes.val)
include hk

theorem exec_rdb_ibufOffset : exec (.rdb (ibufOffset k)) s = .next (giveBack (.byte (Memory.read s.ibuf k)) s) := by
  simp only [exec, execRdb, ibufAt_ibufOffset hk]

theorem exec_rdb_obufOffset : exec (.rdb (obufOffset k)) s = .next (giveBack (.byte (Memory.read s.obuf k)) s) := by
  obtain ⟨hobuf, hibuf⟩ := obufAt_obufOffset hk
  simp only [exec, execRdb, hibuf, hobuf]

theorem exec_wrb_ibufOffset (v : Byte) :
    exec (.wrb (ibufOffset k) v) s = .next { s with ibuf := Memory.write s.ibuf k v } := by
  simp only [exec, execWrb, ibufAt_ibufOffset hk]

theorem exec_wrb_obufOffset (v : Byte) : exec (.wrb (obufOffset k) v) s = .next s := by
  obtain ⟨hobuf, hibuf⟩ := obufAt_obufOffset hk
  simp only [exec, execWrb, hibuf, hobuf]

end

/-- Settles O19: RDB in each window gives the byte back. -/
theorem rdbReturnsTheBufferByte : Obligations.RdbReturnsTheBufferByte :=
  fun _ _ hk => ⟨exec_rdb_ibufOffset hk, exec_rdb_obufOffset hk⟩

/-- Settles O20: WRB in the IBUF window is one write to a canonical buffer. -/
theorem wrbStoresOneInputByte : Obligations.WrbStoresOneInputByte :=
  fun _ k v hwf hk => ⟨_, exec_wrb_ibufOffset hk v, Memory.read_write hwf k v, rfl⟩

/-- Settles O21: WRB in the OBUF window has no effect. -/
theorem wrbToOutputBufferIsIgnored : Obligations.WrbToOutputBufferIsIgnored :=
  fun _ _ v hk => exec_wrb_obufOffset hk v

/-! ## Access errors -/

/-- Outside both windows neither buffer has a byte (20_memory.md R52). -/
theorem bufferAt_of_outsideBuffers {a : Offset} {s : State} (h : OutsideBuffers a s) :
    ibufAt s.bufBytes a = none ∧ obufAt s.bufBytes a = none :=
  ⟨if_neg h.1, if_neg h.2⟩

/-- The error response each kind of access gets (60_exceptions.md R220; assumption 8). -/
def errorResponse : Instr → Response
  | .wr _ _ | .wrb _ _ => .writeError
  | _ => .readError

/-- An access that is an access error has no other effect (60_exceptions.md R220). -/
theorem exec_of_accessIsError {i : Instr} {s : State} (h : AccessIsError i s) :
    exec i s = .next (accessErrorEntry (errorResponse i) s) := by
  cases i
  case rd a => simp only [exec, execRd, regAt_none h, errorResponse]
  case wr a v => simp only [exec, execWr, regAt_none h, errorResponse]
  case rdb a =>
    obtain ⟨hibuf, hobuf⟩ := bufferAt_of_outsideBuffers h
    simp only [exec, execRdb, hibuf, hobuf, errorResponse]
  case wrb a v =>
    obtain ⟨hibuf, hobuf⟩ := bufferAt_of_outsideBuffers h
    simp only [exec, execWrb, hibuf, hobuf, errorResponse]
  all_goals exact h.elim

theorem endsInAccessError_of_accessIsError {i : Instr} {s : State} (h : AccessIsError i s) :
    ∃ t, exec i s = .next t ∧ EndsInAccessError (errorResponse i) s t :=
  ⟨_, exec_of_accessIsError h, endsInAccessError_entry _ s⟩

/-- Settles O22: each of the four accesses named is an access error. -/
theorem accessErrorSetsOnlyAccerr : Obligations.AccessErrorSetsOnlyAccerr := by
  intro s a v b
  constructor
  · intro h
    exact ⟨endsInAccessError_of_accessIsError (i := .rd a) h, endsInAccessError_of_accessIsError (i := .wr a v) h⟩
  · intro hibuf hobuf
    have h : OutsideBuffers a s := ⟨hibuf, hobuf⟩
    exact ⟨endsInAccessError_of_accessIsError (i := .rdb a) h, endsInAccessError_of_accessIsError (i := .wrb a b) h⟩

/-! ## The effect of an access at its own location -/

/-- A word access that is no access error is at a register's offset. -/
theorem exists_regOffset {a : Offset} (h : ¬ (a.toNat > 0x1F ∨ a.toNat % 4 ≠ 0)) : ∃ r, a = regOffset r := by
  obtain ⟨r, hr⟩ := Option.ne_none_iff_exists'.1 (regAt_ne_none h)
  exact ⟨r, eq_regOffset_of_regAt hr⟩

/-- A byte access that is no access error is at the offset of a byte of IBUF or OBUF. -/
theorem exists_bufferOffset {a : Offset} {s : State} (h : ¬ OutsideBuffers a s) :
    ∃ k, k < s.bufBytes.val ∧ (a = ibufOffset k ∨ a = obufOffset k) := by
  have hofNat : BitVec.ofNat 16 a.toNat = a := by simp
  rw [OutsideBuffers, not_and_or, not_not, not_not] at h
  rcases h with ⟨hlo, hhi⟩ | ⟨hlo, hhi⟩
  · exact ⟨a.toNat - 0x1000, by omega, .inl (by rw [ibufOffset, Nat.add_sub_cancel' hlo, hofNat])⟩
  · exact ⟨a.toNat - 0x2000, by omega, .inr (by rw [obufOffset, Nat.add_sub_cancel' hlo, hofNat])⟩

/-- What an access that runs no command does, and the location it does it at. -/
inductive LocalEffect (s : State) : Instr → State → Prop
  | accessError (i : Instr) (r : Response) (h : AccessIsError i s) : LocalEffect s i (accessErrorEntry r s)
  | readValue (i : Instr) (r : Response) : LocalEffect s i (giveBack r s)
  | registerStore (r : Reg) (v : Word) : r ≠ .cmd → LocalEffect s (.wr (regOffset r) v) (writeReg r v s)
  | inputStore (k : Nat) (v : Byte) : LocalEffect s (.wrb (ibufOffset k) v) { s with ibuf := Memory.write s.ibuf k v }
  | outputIgnored (k : Nat) (v : Byte) : LocalEffect s (.wrb (obufOffset k) v) s

/-- Every access that runs no command has one of the local effects. -/
theorem localEffect_exec {i : Instr} {s t : State} (hc : commandCode i = none) (hcmd : ∀ v, i ≠ .wr 0x0000#16 v)
    (h : exec i s = .next t) : LocalEffect s i t := by
  by_cases herr : AccessIsError i s
  · cases (exec_of_accessIsError herr).symm.trans h
    exact .accessError i _ herr
  cases i <;> simp only [commandCode, reduceCtorEq] at hc
  case rd a =>
    obtain ⟨r, rfl⟩ := exists_regOffset herr
    cases (exec_rd_regOffset r s).symm.trans h
    exact .readValue _ _
  case wr a v =>
    obtain ⟨r, rfl⟩ := exists_regOffset herr
    have hr : r ≠ .cmd := by
      rintro rfl
      exact hcmd v rfl
    cases (exec_wr_regOffset hr v s).symm.trans h
    exact .registerStore r v hr
  case rdb a =>
    obtain ⟨k, hk, rfl | rfl⟩ := exists_bufferOffset herr
    · cases (exec_rdb_ibufOffset hk).symm.trans h
      exact .readValue _ _
    · cases (exec_rdb_obufOffset hk).symm.trans h
      exact .readValue _ _
  case wrb a v =>
    obtain ⟨k, hk, rfl | rfl⟩ := exists_bufferOffset herr
    · cases (exec_wrb_ibufOffset hk v).symm.trans h
      exact .inputStore k v
    · cases (exec_wrb_obufOffset hk v).symm.trans h
      exact .outputIgnored k v

/-- A byte write to IBUF changes no byte but the one at its own offset. -/
theorem read_write_of_wrb_ne {s : State} (hwf : Memory.wf s.ibuf) {j k : Nat} {v : Byte}
    (hne : ∀ u, Instr.wrb (ibufOffset j) v ≠ .wrb (ibufOffset k) u) :
    Memory.read (Memory.write s.ibuf j v) k = Memory.read s.ibuf k := by
  have hkj : k ≠ j := by
    rintro rfl
    exact hne v rfl
  rw [Memory.read_write hwf, if_neg hkj]

/-- Settles O23: each local effect is confined to the location it is at. -/
theorem onlyCmdWritesHaveSideEffects : Obligations.OnlyCmdWritesHaveSideEffects := by
  intro i s t hc hcmd h
  cases localEffect_exec hc hcmd h with
  | accessError i r herr =>
    obtain ⟨-, hbits, -⟩ := endsInAccessError_entry r s
    exact ⟨by simp, by simp, by simp, by simp, by simp, by simp, hbits, absurd herr⟩
  | readValue i r => simp
  | registerStore r v hr =>
    cases r
    case cmd => exact absurd rfl hr
    all_goals simp [regOffset]
  | inputStore k v =>
    exact ⟨by simp, by simp, by simp, by simp, fun hne => absurd rfl (hne _ v),
      fun hwf _ hne => read_write_of_wrb_ne hwf hne, by simp, by simp⟩
  | outputIgnored k v => simp

end Sys2Proof.Machine
end

section
/-! A command run again on what it left: it finds the operands it had, so it finishes with the same result, and what it
then does is already done. -/

namespace Sys2Proof.Machine

/-- Storing a byte sequence where it already stands changes nothing. -/
theorem Memory.writeBytes_again {m : Memory} (hm : Memory.wf m) (a : Nat) (bs : List Byte) :
    Memory.writeBytes (Memory.writeBytes m a bs) a bs = Memory.writeBytes m a bs := by
  have hwf := Memory.wf_writeBytes hm a bs
  refine Memory.ext_read (Memory.wf_writeBytes hwf a bs) hwf fun k => ?_
  rw [Memory.read_writeBytes hwf, Memory.read_writeBytes hm]
  split <;> rfl

/-- The sticky FAULTSEEN takes a fault's class once (60_exceptions.md R211). -/
theorem faultEntry_again (f : CmdFault) (code : Byte) (s : State) :
    faultEntry f (storeCode code (faultEntry f (storeCode code s))) = faultEntry f (storeCode code s) := by
  simp only [faultEntry, storeCode, statusFaultSeen_packStatus, statusAccErr_packStatus, Bool.or_assoc, Bool.or_self]

/-- A field a command writes takes the same value the second time, and one it does not write stays. -/
theorem getD_again {α : Type} (o : Option α) (d : α) : o.getD (o.getD d) = o.getD d := by
  cases o <;> rfl

theorem complete_perform_again (w : Writes) (code : Byte) {s : State} (hwf : Memory.wf s.obuf) :
    complete (perform w (storeCode code (complete (perform w (storeCode code s))))) =
      complete (perform w (storeCode code s)) := by
  simp only [complete, perform, storeCode, statusFaultSeen_packStatus, statusAccErr_packStatus, getD_again]
  cases w.out with
  | none => rfl
  | some out => simp only [Memory.writeBytes_again hwf]

theorem finish_again (r : Except CmdFault Writes) (code : Byte) {s : State} (hwf : Memory.wf s.obuf) :
    finish r (storeCode code (finish r (storeCode code s))) = finish r (storeCode code s) := by
  cases r with
  | error f => exact faultEntry_again f code s
  | ok w => exact complete_perform_again w code hwf

/-- No command writes an operand (20_memory.md R59). -/
theorem sameOperands_finish (r : Except CmdFault Writes) (code : Byte) (s : State) :
    SameOperands s (finish r (storeCode code s)) := by
  cases r <;> exact ⟨rfl, rfl, rfl, rfl, fun _ _ => rfl⟩

/-- Settles O29: the second run has the first run's result, and finishing with it again changes nothing. -/
theorem sameCommandTwiceIsOnce : Obligations.SameCommandTwiceIsOnce := by
  intro i code s t hc hwf h
  cases (exec_command hc s).symm.trans h
  rw [exec_command hc, (sameOperands_finish _ code s).commandResult_congr i, finish_again _ code hwf]

end Sys2Proof.Machine
end

section
/-! The host access of an instruction and the instruction of a host access: which codes select a command, which are
reserved, and how a word write to CMD stands to the command its low byte names. -/

namespace Sys2Proof.Machine

/-! ## Command codes -/

/-- A command is selected by its own code, and by no other (30_encoding.md R73). -/
theorem decodeCode_eq_ok_iff {i : Instr} {c : Byte} (hc : commandCode i = some c) {code : Byte} :
    decodeCode code = .ok i ↔ code = c := by
  constructor
  · intro h
    exact Option.some.inj ((commandCode_of_decodeCode h).symm.trans hc)
  · rintro rfl
    exact decodeCode_of_commandCode hc

/-- A code is reserved when it is no row's code (30_encoding.md R74). -/
theorem decodeCode_eq_reserved_iff {code : Byte} :
    decodeCode code = .error (.reservedCode code) ↔ ∀ row ∈ commandTable, row.1 ≠ code := by
  have hnone : commandTable.find? (fun row => row.1 == code) = none ↔ ∀ row ∈ commandTable, row.1 ≠ code := by
    simp only [List.find?_eq_none, beq_iff_eq, ne_eq]
  rw [← hnone, decodeCode]
  cases commandTable.find? (fun row => row.1 == code) <;> simp

theorem decodeCode_cases (code : Byte) :
    (∃ i, decodeCode code = .ok i) ∨ decodeCode code = .error (.reservedCode code) := by
  rw [decodeCode]
  cases commandTable.find? (fun row => row.1 == code) with
  | some row => exact .inl ⟨row.2, rfl⟩
  | none => exact .inr rfl

/-- The gaps of the command map, as ranges (30_encoding.md R74). -/
theorem noRow_iff_ranges (code : Byte) :
    (∀ row ∈ commandTable, row.1 ≠ code) ↔
      (0x05 ≤ code.toNat ∧ code.toNat ≤ 0x0F) ∨ (0x15 ≤ code.toNat ∧ code.toNat ≤ 0x1F) ∨ 0x24 ≤ code.toNat := by
  simp only [commandTable, List.forall_mem_cons, List.not_mem_nil, false_imp_iff, implies_true, and_true, ne_eq,
    ← BitVec.toNat_inj, BitVec.toNat_ofNat, Nat.reducePow, Nat.reduceMod]
  omega

/-! ## Word writes to CMD -/

/-- A WR is well formed unless it is at CMD and its low byte selects a command (assumption 5). -/
theorem wellFormed_wr_iff {a : Offset} {v : Word} :
    WellFormed (.wr a v) = true ↔
      (a = 0x0000#16 → decodeCode (v.setWidth 8) = .error (.reservedCode (v.setWidth 8))) := by
  simp [WellFormed, notACommandWrite, cmdOffset, decodeCode_eq_reserved_iff, imp_iff_not_or]

theorem wr_wellFormed_or_command (a : Offset) (v : Word) :
    WellFormed (.wr a v) = true ∨ a = 0x0000#16 ∧ ∃ i, decodeCode (v.setWidth 8) = .ok i := by
  rcases decodeCode_cases (v.setWidth 8) with hok | hreserved
  · by_cases ha : a = 0x0000#16
    · exact .inr ⟨ha, hok⟩
    · exact .inl (wellFormed_wr_iff.2 fun h => absurd h ha)
  · exact .inl (wellFormed_wr_iff.2 fun _ => hreserved)

/-! ## Decoding an access, kind by kind -/

theorem kind_cases (k : BitVec 2) : k = 0b00#2 ∨ k = 0b01#2 ∨ k = 0b10#2 ∨ k = 0b11#2 := by
  revert k
  decide

theorem decodeAccess_readWord (a : Offset) (v : Word) : decodeAccess ⟨0b00#2, a, v⟩ = .rd a := rfl

theorem decodeAccess_readByte (a : Offset) (v : Word) : decodeAccess ⟨0b10#2, a, v⟩ = .rdb a := rfl

theorem decodeAccess_writeByte (a : Offset) (v : Word) : decodeAccess ⟨0b11#2, a, v⟩ = .wrb a (v.setWidth 8) := rfl

theorem decodeAccess_writeWord {a : Offset} {v : Word} (h : WellFormed (.wr a v) = true) :
    decodeAccess ⟨0b01#2, a, v⟩ = .wr a v := by
  show resolveCommand (.wr a v) = .wr a v
  by_cases ha : a = 0x0000#16
  · simp only [resolveCommand, wellFormed_wr_iff.1 h ha, ite_self]
  · exact if_neg ha

/-- Bits 31 to 8 of the word take no part (30_encoding.md R70). -/
theorem decodeAccess_command {v : Word} {i : Instr} (h : decodeCode (v.setWidth 8) = .ok i) :
    decodeAccess ⟨0b01#2, 0x0000#16, v⟩ = i := by
  show resolveCommand (.wr 0x0000#16 v) = i
  simp only [resolveCommand, cmdOffset, h, if_true]

/-! ## Commands -/

theorem encode_command {i : Instr} {code : Byte} (h : commandCode i = some code) : encode i = cmdWrite code := by
  cases i <;> cases h <;> rfl

theorem wellFormed_command {i : Instr} {code : Byte} (h : commandCode i = some code) : WellFormed i = true := by
  cases i <;> cases h <;> rfl

/-- A byte carried in a word's low bits comes back whole (30_encoding.md R72). -/
theorem setWidth_byte_word (b : Byte) : (b.setWidth 32 : Word).setWidth 8 = b := by
  rw [BitVec.setWidth_setWidth_of_le b (by decide), BitVec.setWidth_eq]

/-! ## The obligations -/

/-- Settles O1: a command comes back by its code, and a host access by its kind. -/
theorem decodeOfEncodeGivesTheInstruction : Obligations.DecodeOfEncodeGivesTheInstruction := by
  intro i hwf
  cases hc : commandCode i with
  | some code =>
    rw [encode_command hc]
    exact decodeAccess_command (by rw [setWidth_byte_word, decodeCode_of_commandCode hc])
  | none =>
    cases i <;> simp only [commandCode, reduceCtorEq] at hc
    case rd a => exact decodeAccess_readWord a _
    case wr a v => exact decodeAccess_writeWord hwf
    case rdb a => exact decodeAccess_readByte a _
    case wrb a b => exact (decodeAccess_writeByte a _).trans (by rw [setWidth_byte_word])

/-- Settles O2: each kind keeps what it uses, and a word write is a well-formed WR or the command its low byte names. -/
theorem decodedAccessIsWellFormedAndLosesNothing : Obligations.DecodedAccessIsWellFormedAndLosesNothing := by
  rintro ⟨k, a, v⟩
  rcases kind_cases k with rfl | rfl | rfl | rfl
  · rw [decodeAccess_readWord]
    exact ⟨rfl, rfl, rfl, by simp, by simp⟩
  · rcases wr_wellFormed_or_command a v with hwf | ⟨rfl, i, hi⟩
    · rw [decodeAccess_writeWord hwf]
      exact ⟨hwf, rfl, rfl, fun _ => rfl, fun _ _ => rfl⟩
    · have hc : commandCode i = some (v.setWidth 8) := commandCode_of_decodeCode hi
      rw [decodeAccess_command hi, encode_command hc]
      exact ⟨wellFormed_command hc, rfl, rfl, fun _ => setWidth_byte_word _, fun _ h0 => absurd rfl h0⟩
  · rw [decodeAccess_readByte]
    exact ⟨rfl, rfl, rfl, by simp, by simp⟩
  · rw [decodeAccess_writeByte]
    exact ⟨rfl, rfl, rfl, fun _ => setWidth_byte_word _, by simp⟩

/-- Settles O3: each row of the command map by its own code. -/
theorem eachCodeSelectsItsCommand : Obligations.EachCodeSelectsItsCommand := by
  intro code
  exact ⟨decodeCode_eq_ok_iff rfl, decodeCode_eq_ok_iff rfl, decodeCode_eq_ok_iff rfl, decodeCode_eq_ok_iff rfl,
    decodeCode_eq_ok_iff rfl, decodeCode_eq_ok_iff rfl, decodeCode_eq_ok_iff rfl, decodeCode_eq_ok_iff rfl,
    decodeCode_eq_ok_iff rfl, decodeCode_eq_ok_iff rfl, decodeCode_eq_ok_iff rfl, decodeCode_eq_ok_iff rfl,
    decodeCode_eq_ok_iff rfl, decodeCode_eq_ok_iff rfl, fun _ => commandCode_of_decodeCode⟩

/-- Settles O4: the reserved codes are the gaps of the command map, and a WR of one to CMD takes E_ILLEGAL. -/
theorem reservedCodesFaultIllegal : Obligations.ReservedCodesFaultIllegal := by
  intro code
  refine ⟨decodeCode_eq_reserved_iff.trans (noRow_iff_ranges code), ?_⟩
  rintro s v hreserved rfl
  have hfault := faultsWith_faultEntry (v.setWidth 8) .illegal s
  obtain ⟨-, -, -, hecode, hseen, -⟩ := id hfault
  exact ⟨_, execWr_reserved hreserved s, hfault, hecode, hseen.trans (Bool.or_true _)⟩

/-- Settles O18: a WR at CMD is RunCommand of its low byte. -/
theorem wrToCmdRunsTheNamedCommand : Obligations.WrToCmdRunsTheNamedCommand := by
  intro s v i h
  exact execWr_command h s

/-- Settles O5: five words name a command, two are a WR, and the other kinds decode by their kind code. -/
theorem specWordsDecodeToTheirInstructions : Obligations.SpecWordsDecodeToTheirInstructions :=
  ⟨decodeAccess_command rfl, decodeAccess_command rfl, decodeAccess_command rfl, decodeAccess_command rfl,
    decodeAccess_command rfl, decodeAccess_writeWord (by decide), decodeAccess_writeWord (by decide),
    decodeAccess_readWord _ _, decodeAccess_readByte _ _, decodeAccess_writeByte _ _⟩

end Sys2Proof.Machine
end

section
/-! The two ends of a command, completion and fault, and NOP, which has only the first. -/

namespace Sys2Proof.Machine

/-- Settles O24: the command's result decides which of the two ends its next state has. -/
theorem everyCommandCompletesOrFaults : Obligations.EveryCommandCompletesOrFaults := by
  intro i code s hc
  cases hr : commandResult i s with
  | error f =>
    obtain ⟨t, hexec, hfault⟩ := exec_command_error hc hr
    exact ⟨t, hexec, .inr ⟨f, hfault⟩⟩
  | ok w =>
    obtain ⟨hexec, hdone⟩ := exec_command_ok hc hr
    exact ⟨_, hexec, .inl hdone⟩

/-! ## NOP -/

/-- In every state NOP stores its code, makes no writes and completes (40_control.md R92). -/
theorem exec_nop (s : State) : exec .nop s = .next (complete (perform {} (storeCode 0x00#8 s))) :=
  exec_command rfl s

/-- Performing no writes leaves every output as it was. -/
theorem keepsOutputs_perform_empty (code : Byte) (s : State) :
    KeepsOutputs s (complete (perform {} (storeCode code s))) := by
  simp [KeepsOutputs]

/-- The low byte 0x00 names NOP, whatever bits 31 to 8 hold (30_encoding.md R70, R73). -/
theorem decodeCode_nop {v : Word} (h : v.setWidth 8 = 0x00#8) : decodeCode (v.setWidth 8) = .ok .nop :=
  (decodeCode_eq_ok_iff rfl).2 h

/-- Settles O30: NOP always completes with no writes, so it touches STATUS and the stored code only. -/
theorem nopTouchesOnlyStatus : Obligations.NopTouchesOnlyStatus := by
  refine ⟨fun s => ?_, fun s v hv => ?_, ?_⟩
  · exact ⟨_, exec_nop s, completes_perform 0x00#8 {} s, keepsOutputs_perform_empty 0x00#8 s⟩
  · exact execWr_command (decodeCode_nop hv) s
  · exact ⟨_, exec_nop State.reset, by decide⟩

end Sys2Proof.Machine
end

section
/-! The XOR fold and the checksum (00_scope.md R10, 41_envelope.md R102): what each is on a sequence put together from
parts, and the checksum laws of R103. -/

namespace Sys2Proof.Machine

/-! ## The XOR fold -/

theorem xorFold_append (l m : List Byte) : xorFold (l ++ m) = xorFold l ^^^ xorFold m := by
  induction l with
  | nil => simp [xorFold]
  | cons b l ih => simp [xorFold, ih, BitVec.xor_assoc]

/-- The order of the bytes does not matter (41_envelope.md R103). -/
theorem xorFold_perm {l m : List Byte} (h : l.Perm m) : xorFold l = xorFold m := by
  induction h with
  | nil => rfl
  | cons b _ ih => simp only [xorFold, ih]
  | swap a b l => simp only [xorFold, ← BitVec.xor_assoc, BitVec.xor_comm b a]
  | trans _ _ ih₁ ih₂ => exact ih₁.trans ih₂

/-- A byte that occurs twice cancels out (41_envelope.md R103). -/
theorem xorFold_pair_cancel (b : Byte) (l : List Byte) : xorFold (b :: b :: l) = xorFold l := by
  rw [xorFold, xorFold, ← BitVec.xor_assoc, BitVec.xor_self, BitVec.zero_xor]

/-- Keeping bits 6 to 0 commutes with XOR (41_envelope.md R103). -/
theorem low7_xor (a b : Byte) : (a ^^^ b) &&& 0x7F#8 = (a &&& 0x7F#8) ^^^ (b &&& 0x7F#8) := by
  ext i
  simp [Bool.and_xor_distrib_right]

theorem low7_low7 (a : Byte) : a &&& 0x7F#8 &&& 0x7F#8 = a &&& 0x7F#8 := by
  rw [BitVec.and_assoc, BitVec.and_self]

/-- Bits 6 to 0 of a byte are 7-bit-safe (00_scope.md R8). -/
theorem low7_toNat_le (a : Byte) : (a &&& 0x7F#8).toNat ≤ 0x7F := by
  rw [BitVec.toNat_and]
  exact Nat.and_le_right

theorem xorFold_map_low7 (l : List Byte) : xorFold (l.map fun b => b &&& 0x7F#8) = xorFold l &&& 0x7F#8 := by
  induction l with
  | nil => rfl
  | cons b l ih => simp only [List.map_cons, xorFold, ih, low7_xor]

theorem foldl_xor_eq (l : List Byte) (a : Byte) : l.foldl (fun x b => x ^^^ b) a = a ^^^ xorFold l := by
  induction l generalizing a with
  | nil => simp [xorFold]
  | cons b l ih => simp only [List.foldl_cons, ih, xorFold, BitVec.xor_assoc]

/-- The fold of the statements is the model's fold, its low 7 bits kept. -/
theorem xor7_eq (l : List Byte) : Spec.xor7 l = xorFold l &&& 0x7F#8 := by
  rw [Spec.xor7, Spec.xorOf, foldl_xor_eq, BitVec.zero_xor]

/-! ## The checksum -/

/-- The checksum is over every byte but the last (41_envelope.md R102). -/
theorem checksum_concat (l : List Byte) (x : Byte) : checksum (l ++ [x]) = xorFold l &&& 0x7F#8 := by
  rw [checksum, List.dropLast_concat]

theorem checksum_eq_xor7 (f : List Byte) : checksum f = Spec.xor7 (f.take (f.length - 1)) := by
  rw [xor7_eq, checksum, List.dropLast_eq_take]

theorem checksum_toNat_le (f : List Byte) : (checksum f).toNat ≤ 0x7F := low7_toNat_le _

theorem checksum_map_low7 (f : List Byte) : checksum (f.map fun b => b &&& 0x7F#8) = checksum f := by
  rw [checksum, ← List.map_dropLast, xorFold_map_low7, low7_low7, checksum]

/-- The header contributes 0x05 (41_envelope.md R103). -/
theorem checksum_header (t : List Byte) (x y : Byte) :
    checksum (Spec.header ++ t ++ [x, y]) = 0x05#8 ^^^ (xorFold (t ++ [x]) &&& 0x7F#8) := by
  have hsplit : Spec.header ++ t ++ [x, y] = Spec.header ++ (t ++ [x]) ++ [y] := by simp
  rw [hsplit, checksum_concat, xorFold_append, low7_xor]
  rfl

/-- Settles O32: each law is one of the XOR fold, or of the last byte that the checksum leaves out. -/
theorem checksumLaws : Obligations.ChecksumLaws := by
  refine ⟨checksum_toNat_le, fun f x y => ?_, fun f g x hperm => ?_, fun f b x => ?_, low7_xor, checksum_map_low7, rfl,
    checksum_header⟩
  · rw [checksum_concat, checksum_concat]
  · rw [checksum_concat, checksum_concat, xorFold_perm hperm]
  · rw [checksum_concat, checksum_concat, xorFold_pair_cancel]

end Sys2Proof.Machine
end

section
/-! Commands on a known input sequence: a body is reached when the input fits, a completed command's writes stand in the
next state, and they are the next command's input once the host has copied them back. -/

namespace Sys2Proof.Machine

/-- An input sequence that fits IBUF passes RunCommand's check (40_control.md R90). -/
theorem checkedBody_of_inputIs {f : List Byte} {s : State} (h : InputIs f s) (body : State → Except CmdFault Writes) :
    checkedBody body s = body s :=
  checkedBody_inside (h.1.trans_le h.2.1)

/-- A command whose writes hold a byte sequence completes with that sequence in OBUF, its length in OLEN, and its RES and
FRM. -/
theorem exec_command_writes {i : Instr} {code : Byte} {s : State} {w : Writes} {out : List Byte}
    (hc : commandCode i = some code) (hr : commandResult i s = .ok w) (hout : w.out = some out)
    (hwf : Memory.wf s.obuf) :
    ∃ t, exec i s = .next t ∧ Completes code s t ∧ WritesOut out s t ∧ t.res = w.res.getD s.res ∧
      t.frm = w.frm.getD s.frm := by
  obtain ⟨hexec, hdone⟩ := exec_command_ok hc hr
  have hfit : out.length ≤ s.bufBytes.val := commandResult_fits hr hout
  have hmax : s.bufBytes.val ≤ 4096 := s.bufBytes.2.2
  exact ⟨_, hexec, hdone, writesOut_perform hwf hout (by omega), rfl, rfl⟩

/-- OLEN.LEN is the length of the byte sequence a command wrote (10_state.md R29). -/
theorem olenLen_of_writesOut {out : List Byte} {s t : State} (h : WritesOut out s t) (hlt : out.length < 65536) :
    olenLen t = out.length := by
  rw [olenLen, h.1, ← lengthWord_eq hlt, extract_lengthWord hlt]

/-- What a completed command wrote is the next command's input, once copied (70_reset_and_hazards.md R251). -/
theorem inputIs_of_feedsTo {code : Byte} {out : List Byte} {s t u : State} (hdone : Completes code s t)
    (hout : WritesOut out s t) (hfit : out.length ≤ s.bufBytes.val) (hfeed : FeedsTo t u) : InputIs out u := by
  obtain ⟨-, -, -, -, -, -, -, -, -, -, -, hbuf, -⟩ := hdone
  obtain ⟨hbuf', hlen, hread⟩ := hfeed
  have hmax : s.bufBytes.val ≤ 4096 := s.bufBytes.2.2
  have holen : olenLen t = out.length := olenLen_of_writesOut hout (by omega)
  refine ⟨hlen.trans holen, by rw [hbuf', hbuf]; exact hfit, fun k hk => ?_⟩
  rw [hread k (holen ▸ hk), hout.2 k, if_pos hk]

/-- A sequence of 2 bytes or more ends in a slot and a last byte (41_envelope.md R101). -/
theorem exists_eq_append_slot_last {f : List Byte} (h : 2 ≤ f.length) : ∃ p x y, f = p ++ [x, y] := by
  rcases List.eq_nil_or_concat f with rfl | ⟨g, y, rfl⟩
  · simp at h
  · rcases List.eq_nil_or_concat g with rfl | ⟨p, x, rfl⟩
    · simp at h
    · exact ⟨p, x, y, by simp⟩

end Sys2Proof.Machine
end

section
/-! CKSUM and WITHCK (41_envelope.md R105, R108, R109). -/

namespace Sys2Proof.Machine

/-- Both need a byte to check and a last byte behind it (41_envelope.md R105, R108). -/
theorem commandResult_short {i : Instr} (hi : i = .cksum ∨ i = .withck) {f : List Byte} {s : State} (h : InputIs f s)
    (hlen : f.length < 2) : commandResult i s = .error .short := by
  have hshort : ilenLen s < 2 := h.1.trans_lt hlen
  rcases hi with rfl | rfl
  · rw [commandResult, checkedBody_of_inputIs h, cksumBody, if_pos hshort]
  · rw [commandResult, checkedBody_of_inputIs h, withckBody, if_pos hshort]

/-! ## CKSUM -/

theorem commandResult_cksum {f : List Byte} {s : State} (h : InputIs f s) (hlen : 2 ≤ f.length) :
    commandResult .cksum s = .ok { res := some (zext32 (checksum f)) } := by
  rw [commandResult, checkedBody_of_inputIs h, cksumBody, if_neg (by rw [h.1]; omega), inputBytes_of_inputIs h]

/-- From 2 bytes on CKSUM completes with the checksum in RES and no other output (41_envelope.md R105). -/
theorem cksum_completes {f : List Byte} {s : State} (h : InputIs f s) (hlen : 2 ≤ f.length) :
    ∃ t, exec .cksum s = .next t ∧ Completes 0x01#8 s t ∧
      t.res = zext32 (checksum f) ∧ t.olen = s.olen ∧ t.obuf = s.obuf ∧ t.frm = s.frm := by
  obtain ⟨hexec, hdone⟩ := exec_command_ok rfl (commandResult_cksum h hlen)
  exact ⟨_, hexec, hdone, rfl, rfl, rfl, rfl⟩

/-- Settles O31: a long input is RunCommand's fault, a short one CKSUM's own, and any other has a checksum. -/
theorem cksumResult : Obligations.CksumResult := by
  intro s
  refine ⟨longInputFaultsBounds .cksum 0x01#8 s rfl (by decide), fun f h => ⟨fun hlen => ?_, fun hlen => ?_⟩⟩
  · exact exec_command_error rfl (commandResult_short (.inl rfl) h hlen)
  · rw [← checksum_eq_xor7]
    exact cksum_completes h hlen

/-! ## WITHCK -/

theorem commandResult_withck {f : List Byte} {s : State} (h : InputIs f s) (hlen : 2 ≤ f.length) :
    commandResult .withck s = .ok { out := some (withChecksum f), res := some (zext32 (checksum f)) } := by
  rw [commandResult, checkedBody_of_inputIs h, withckBody, if_neg (by rw [h.1]; omega), inputBytes_of_inputIs h]

/-- From 2 bytes on WITHCK completes with the checksum in the slot and in RES (41_envelope.md R108). -/
theorem withck_completes {f : List Byte} {s : State} (h : InputIs f s) (hlen : 2 ≤ f.length) (hwf : Memory.wf s.obuf) :
    ∃ t, exec .withck s = .next t ∧ Completes 0x02#8 s t ∧ WritesOut (withChecksum f) s t ∧
      t.res = zext32 (checksum f) ∧ t.frm = s.frm :=
  exec_command_writes rfl (commandResult_withck h hlen) rfl hwf

/-- The slot takes the checksum of the whole sequence, the last byte is copied. -/
theorem withChecksum_slot_last (p : List Byte) (x y : Byte) :
    withChecksum (p ++ [x, y]) = p ++ [(xorFold p ^^^ x) &&& 0x7F#8, y] := by
  have hck : checksum (p ++ [x, y]) = (xorFold p ^^^ x) &&& 0x7F#8 := by
    rw [List.append_cons, checksum_concat, xorFold_append]
    simp [xorFold]
  simp [withChecksum, hck, List.drop_append]

theorem withChecksum_eq {f : List Byte} (h : 2 ≤ f.length) :
    withChecksum f =
      f.take (f.length - 2) ++ [Spec.xor7 (f.take (f.length - 1)), f.getD (f.length - 1) 0x00#8] := by
  rw [withChecksum, checksum_eq_xor7]
  obtain ⟨p, x, y, rfl⟩ := exists_eq_append_slot_last h
  simp [List.drop_append]

/-- Settles O34: the faults are CKSUM's, and the output is the sequence with its checksum in the slot. -/
theorem withckResult : Obligations.WithckResult := by
  intro s
  refine ⟨longInputFaultsBounds .withck 0x02#8 s rfl (by decide), fun f h => ⟨fun hlen => ?_, fun hlen hwf => ?_⟩⟩
  · exact exec_command_error rfl (commandResult_short (.inr rfl) h hlen)
  · rw [← withChecksum_eq hlen, ← checksum_eq_xor7]
    exact withck_completes h hlen hwf

/-- What a run of WITHCK leaves: the checksum in the slot of OBUF, and a sequence that differs from the input there only. -/
theorem withck_slot {p : List Byte} {x y : Byte} {s t : State} (h : InputIs (p ++ [x, y]) s) (hwf : Memory.wf s.obuf)
    (hexec : exec .withck s = .next t) :
    Memory.read t.obuf p.length = (xorFold p ^^^ x) &&& 0x7F#8 ∧
      ∀ u, FeedsTo t u → InputIs (p ++ [(xorFold p ^^^ x) &&& 0x7F#8, y]) u := by
  obtain ⟨t', hexec', hdone, hout, -⟩ := withck_completes h (by simp) hwf
  cases hexec'.symm.trans hexec
  rw [withChecksum_slot_last] at hout
  refine ⟨?_, fun u hfeed => inputIs_of_feedsTo hdone hout (by simpa using h.2.1) hfeed⟩
  rw [hout.2 p.length]
  simp

/-- Settles O35: the slot goes from bits of zero to `s`, then to `s ^^^ s`, then to `s` again. -/
theorem withckAgainClearsTheSlot : Obligations.WithckAgainClearsTheSlot := by
  intro s t u v w x f h hlen hslot hs hu hw hst htu huv hvw hwx
  obtain ⟨p, a, y, rfl⟩ := exists_eq_append_slot_last hlen
  have ha : a &&& 0x7F#8 = 0x00#8 := by simpa using hslot
  have hfirst : (xorFold p ^^^ a) &&& 0x7F#8 = xorFold p &&& 0x7F#8 := by rw [low7_xor, ha, BitVec.xor_zero]
  have hsecond : (xorFold p ^^^ (xorFold p &&& 0x7F#8)) &&& 0x7F#8 = 0x00#8 := by
    rw [low7_xor, low7_low7, BitVec.xor_self]
  obtain ⟨ht, hnext⟩ := withck_slot h hs hst
  rw [hfirst] at ht hnext
  obtain ⟨hv, hnext'⟩ := withck_slot (hnext u htu) hu huv
  rw [hsecond] at hv hnext'
  obtain ⟨hx, -⟩ := withck_slot (hnext' w hvw) hw hwx
  rw [BitVec.xor_zero] at hx
  simp [xor7_eq, ht, hv, hx]

end Sys2Proof.Machine
end

section
/-! WRAP, and CKSUM of what it built (41_envelope.md R105, R111). -/

namespace Sys2Proof.Machine

/-- WRAP's checksum is over the header and the body: the placeholder is 0 (41_envelope.md R111). -/
theorem wrapChecksum_eq (b : List Byte) : wrapChecksum b = xorFold (frameHeader ++ b) &&& 0x7F#8 := by
  rw [wrapChecksum, List.append_cons, checksum_concat, xorFold_append (frameHeader ++ b)]
  simp [xorFold]

theorem wrapChecksum_eq_xor7 (b : List Byte) : wrapChecksum b = Spec.xor7 (Spec.header ++ b) :=
  (wrapChecksum_eq b).trans (xor7_eq _).symm

theorem wrapFrame_eq (b : List Byte) :
    wrapFrame b = Spec.header ++ b ++ [Spec.xor7 (Spec.header ++ b), 0xF7#8] := by
  rw [wrapFrame, wrapChecksum_eq_xor7]
  rfl

theorem commandResult_wrap_overflow {b : List Byte} {s : State} (h : InputIs b s)
    (hlen : b.length + 6 > s.bufBytes.val) : commandResult .wrap s = .error .overflow := by
  rw [commandResult, checkedBody_of_inputIs h, wrapBody, if_pos (by rw [h.1]; exact hlen)]

theorem commandResult_wrap {b : List Byte} {s : State} (h : InputIs b s) (hlen : b.length + 6 ≤ s.bufBytes.val) :
    commandResult .wrap s = .ok { out := some (wrapFrame b), res := some (zext32 (wrapChecksum b)) } := by
  rw [commandResult, checkedBody_of_inputIs h, wrapBody, if_neg (by rw [h.1]; omega), inputBytes_of_inputIs h]

/-- A body that fits is framed whatever its bytes (41_envelope.md R111). -/
theorem wrap_completes {b : List Byte} {s : State} (h : InputIs b s) (hlen : b.length + 6 ≤ s.bufBytes.val)
    (hwf : Memory.wf s.obuf) :
    ∃ t, exec .wrap s = .next t ∧ Completes 0x03#8 s t ∧ WritesOut (wrapFrame b) s t ∧
      t.res = zext32 (wrapChecksum b) ∧ t.frm = s.frm :=
  exec_command_writes rfl (commandResult_wrap h hlen) rfl hwf

/-- Settles O36: a body that is not too long for IBUF may still be too long for its frame. -/
theorem wrapResult : Obligations.WrapResult := by
  intro s
  refine ⟨longInputFaultsBounds .wrap 0x03#8 s rfl (by decide), fun b h => ⟨fun hlen => ?_, fun hlen hwf => ?_⟩⟩
  · exact exec_command_error rfl (commandResult_wrap_overflow h hlen)
  · obtain ⟨t, hexec, hdone, hout, hres, hfrm⟩ := wrap_completes h hlen hwf
    have holen : t.olen = BitVec.ofNat 32 (b.length + 6) := by rw [hout.1, wrapFrame_length]
    rw [wrapFrame_eq] at hout
    rw [wrapChecksum_eq_xor7] at hres
    exact ⟨t, hexec, hdone, hout, holen, hres, hfrm⟩

/-- WRAP's output, copied back, is the frame of its body. -/
theorem inputIs_wrapFrame {b : List Byte} {s t u : State} (h : InputIs b s) (hlen : b.length + 6 ≤ s.bufBytes.val)
    (hwf : Memory.wf s.obuf) (hexec : exec .wrap s = .next t) (hfeed : FeedsTo t u) : InputIs (wrapFrame b) u := by
  obtain ⟨t', hexec', hdone, hout, -⟩ := wrap_completes h hlen hwf
  cases hexec'.symm.trans hexec
  exact inputIs_of_feedsTo hdone hout (by rw [wrapFrame_length]; exact hlen) hfeed

/-- A stored checksum cancels the sum it was made of (41_envelope.md R105). -/
theorem checksum_wrapFrame (b : List Byte) : checksum (wrapFrame b) = 0x00#8 := by
  rw [wrapFrame, List.append_cons, checksum_concat, xorFold_append (frameHeader ++ b), wrapChecksum_eq]
  simp only [xorFold, BitVec.xor_zero]
  rw [low7_xor, low7_low7, BitVec.xor_self]

/-- Settles O33: the frame is CKSUM's input, and its checksum is 0. -/
theorem cksumOfWrappedFrameIsZero : Obligations.CksumOfWrappedFrameIsZero := by
  intro s t u b h hlen hwf hexec hfeed
  have hframe : InputIs (wrapFrame b) u := inputIs_wrapFrame h hlen hwf hexec hfeed
  obtain ⟨v, hv, hdone, hres, -⟩ := cksum_completes hframe (by simp)
  rw [checksum_wrapFrame] at hres
  exact ⟨v, hv, hdone, hres⟩

end Sys2Proof.Machine
end

section
/-! FRAMEDEC, and FRAMEDEC of what WRAP built (41_envelope.md R112, R120). -/

namespace Sys2Proof.Machine

/-! ## What the flags and the fields say -/

/-- FRAME_OK is the conjunction of the other flags, and nothing stands above it (41_envelope.md R120). -/
theorem packFrameFlags_bits (h t c d : Bool) :
    (packFrameFlags h t c d).getLsbD 0 = true ∧ (packFrameFlags h t c d).getLsbD 1 = h ∧
      (packFrameFlags h t c d).getLsbD 2 = t ∧ (packFrameFlags h t c d).getLsbD 3 = c ∧
      (packFrameFlags h t c d).getLsbD 4 = d ∧ (packFrameFlags h t c d).getLsbD 5 = (h && t && c && d) ∧
      (packFrameFlags h t c d).toNat < 64 := by
  revert h t c d
  decide

theorem expectedChecksum_eq_xor7 (f : List Byte) : expectedChecksum f = Spec.xor7 (f.take (f.length - 2)) :=
  (xor7_eq _).symm

theorem expectedChecksum_toNat_le (f : List Byte) : (expectedChecksum f).toNat ≤ 0x7F := low7_toNat_le _

/-- DATA7_OK looks at the bytes between the header and the last byte (41_envelope.md R120). -/
theorem dataBytes_safe7_iff {f : List Byte} (hlen : 2 ≤ f.length) :
    ((f.take (f.length - 1)).drop 4).all isSafe7 = true ↔
      ∀ k, 4 ≤ k → k ≤ f.length - 2 → (f.getD k 0x00#8).toNat ≤ 0x7F := by
  simp only [List.all_eq_true, List.forall_mem_iff_forall_getElem, isSafe7, decide_eq_true_eq, List.getElem_drop,
    List.getElem_take, List.length_drop, List.length_take]
  constructor
  · intro h k hk4 hk
    obtain ⟨j, rfl⟩ := Nat.exists_eq_add_of_le hk4
    rw [List.getD_eq_getElem _ _ (by omega)]
    exact h j (by omega)
  · intro h j hj
    have hget := h (4 + j) (by omega) (by omega)
    rwa [List.getD_eq_getElem _ _ (by omega)] at hget

/-- A 7-bit-safe byte is its low 7 bits (00_scope.md R8). -/
theorem setWidth_seven_eight {e : Byte} (h : e.toNat ≤ 0x7F) : (e.setWidth 7).setWidth 8 = e := by
  apply BitVec.eq_of_toNat_eq
  simp only [BitVec.toNat_setWidth]
  omega

/-- CKCALC's 7 bits hold the whole of the expected checksum (10_state.md R30). -/
theorem frmCkCalc_frameFields (f : List Byte) :
    (frmCkCalc (frameFields f)).setWidth 8 = Spec.xor7 (f.take (f.length - 2)) := by
  rw [frameFields, frmCkCalc_packFrm, setWidth_seven_eight (expectedChecksum_toNat_le f), expectedChecksum_eq_xor7]

theorem frameFields_bit31 (f : List Byte) : (frameFields f).getLsbD 31 = false := by
  have h := congrArg (fun v : Word => v.getLsbD 31) (frameFields_reserved f)
  simpa [definedBits] using h

/-! ## The command -/

theorem commandResult_framedec_short {f : List Byte} {s : State} (h : InputIs f s) (hlen : f.length < 8) :
    commandResult .framedec s = .ok { res := some 0#32, frm := some 0#32, out := some [] } := by
  rw [commandResult, checkedBody_of_inputIs h, framedecBody, if_pos (h.1.trans_lt hlen)]

theorem commandResult_framedec {f : List Byte} {s : State} (h : InputIs f s) (hlen : 8 ≤ f.length) :
    commandResult .framedec s =
      .ok { res := some (frameFlags f), frm := some (frameFields f), out := some (framePayload f) } := by
  rw [commandResult, checkedBody_of_inputIs h, framedecBody, if_neg (by rw [h.1]; omega), inputBytes_of_inputIs h]

/-- From 8 bytes on FRAMEDEC completes with the flags, the fields and the payload, whatever the bytes (41_envelope.md R120). -/
theorem framedec_completes {f : List Byte} {s : State} (h : InputIs f s) (hlen : 8 ≤ f.length) (hwf : Memory.wf s.obuf) :
    ∃ t, exec .framedec s = .next t ∧ Completes 0x04#8 s t ∧ WritesOut (framePayload f) s t ∧
      t.res = frameFlags f ∧ t.frm = frameFields f :=
  exec_command_writes rfl (commandResult_framedec h hlen) rfl hwf

/-- Settles O37: the only fault is RunCommand's; under 8 bytes the outputs are 0, and from 8 on each is read off the
frame. -/
theorem framedecResult : Obligations.FramedecResult := by
  intro s
  refine ⟨longInputFaultsBounds .framedec 0x04#8 s rfl (by decide), fun f h => ⟨fun hlen => ?_, fun hlen hwf => ?_⟩⟩
  · obtain ⟨hexec, hdone⟩ := exec_command_ok rfl (commandResult_framedec_short h hlen)
    exact ⟨_, hexec, hdone, rfl, rfl, rfl, rfl⟩
  · obtain ⟨t, hexec, hdone, hout, hres, hfrm⟩ := framedec_completes h hlen hwf
    obtain ⟨hbit0, hhdr, hterm, hck, hdata, hframe, htop⟩ := packFrameFlags_bits
      (f.take 4 == frameHeader) (f.getD (f.length - 1) 0x00#8 == terminator)
      (f.getD (f.length - 2) 0x00#8 == expectedChecksum f) (((f.take (f.length - 1)).drop 4).all isSafe7)
    rw [← frameFlags, ← hres] at hbit0 hhdr hterm hck hdata hframe htop
    refine ⟨t, hexec, hdone, hbit0, ?_, ?_, ?_, ?_, ?_, htop, ?_, ?_, ?_, ?_, ?_, hout⟩
    · rw [hhdr, beq_iff_eq]
      rfl
    · rw [hterm, beq_iff_eq]
      rfl
    · rw [hck, beq_iff_eq, expectedChecksum_eq_xor7]
    · rw [hdata, dataBytes_safe7_iff (by omega)]
    · rw [hframe, hhdr, hterm, hck, hdata]
    · rw [hfrm, frameFields, frmModel_packFrm]
    · rw [hfrm, frameFields, frmOpcode_packFrm]
    · rw [hfrm, frameFields, frmCkStored_packFrm]
    · rw [hfrm, frmCkCalc_frameFields]
    · rw [hfrm, frameFields_bit31]

/-! ## What WRAP built -/

/-- The expected checksum is over every byte before the slot (41_envelope.md R120). -/
theorem expectedChecksum_slot_last (p : List Byte) (x y : Byte) :
    expectedChecksum (p ++ [x, y]) = xorFold p &&& 0x7F#8 := by
  simp [expectedChecksum]

theorem framePayload_slot_last (p : List Byte) (x y : Byte) : framePayload (p ++ [x, y]) = p.drop 6 := by
  simp [framePayload]

/-- The bytes DATA7_OK looks at are the body and the checksum. -/
theorem dataBytes_wrapFrame (b : List Byte) :
    ((wrapFrame b).take ((wrapFrame b).length - 1)).drop 4 = b ++ [wrapChecksum b] := by
  rw [← List.dropLast_eq_take, wrapFrame, List.append_cons, List.dropLast_concat]
  rfl

/-- The body stands behind the header (41_envelope.md R111). -/
theorem wrapFrame_getD {b : List Byte} {k : Nat} (hk : k < b.length) :
    (wrapFrame b).getD (4 + k) 0x00#8 = b.getD k 0x00#8 := by
  rw [wrapFrame, List.append_assoc, List.getD_append_right _ _ _ _ (by simp [frameHeader]), List.getD_append]
  · simp [frameHeader]
  · simpa [frameHeader] using hk

/-- Every flag of a frame around 7-bit-safe bytes is 1 (41_envelope.md R112). -/
theorem frameFlags_wrapFrame {b : List Byte} (hsafe : ∀ c ∈ b, c.toNat ≤ 0x7F) : frameFlags (wrapFrame b) = 0x3F#32 := by
  have hhdr : (wrapFrame b).take 4 = frameHeader := by simp [wrapFrame, frameHeader]
  have hterm : (wrapFrame b).getD ((wrapFrame b).length - 1) 0x00#8 = terminator := by simp [wrapFrame, frameHeader]
  have hck : (wrapFrame b).getD ((wrapFrame b).length - 2) 0x00#8 = expectedChecksum (wrapFrame b) := by
    rw [wrapFrame, expectedChecksum_slot_last, ← wrapChecksum_eq]
    simp [frameHeader]
  have hdata : (((wrapFrame b).take ((wrapFrame b).length - 1)).drop 4).all isSafe7 = true := by
    have hcksafe : (wrapChecksum b).toNat ≤ 0x7F := checksum_toNat_le _
    rw [dataBytes_wrapFrame]
    simpa [isSafe7, hcksafe] using hsafe
  rw [frameFlags, hhdr, hterm, hck, hdata]
  simp only [beq_self_eq_true]
  rfl

/-- The payload is the body without its model and opcode (41_envelope.md R101). -/
theorem framePayload_wrapFrame (b : List Byte) : framePayload (wrapFrame b) = b.drop 2 := by
  rw [wrapFrame, framePayload_slot_last]
  rfl

/-- Settles O38: the frame is FRAMEDEC's input, its flags are all 1, and its model and opcode are the body's first two
bytes. -/
theorem framedecAcceptsWhatWrapBuilt : Obligations.FramedecAcceptsWhatWrapBuilt := by
  intro s t u b h hlen hsafe hfit hs hu hexec hfeed
  have hframe : InputIs (wrapFrame b) u := inputIs_wrapFrame h hfit hs hexec hfeed
  obtain ⟨v, hv, hdone, hout, hres, hfrm⟩ := framedec_completes hframe (by simpa using hlen) hu
  rw [framePayload_wrapFrame] at hout
  rw [frameFlags_wrapFrame hsafe] at hres
  refine ⟨v, hv, hdone, hres, ?_, ?_, hout⟩
  · rw [hfrm, frameFields, frmModel_packFrm]
    exact wrapFrame_getD (k := 0) (by omega)
  · rw [hfrm, frameFields, frmOpcode_packFrm]
    exact wrapFrame_getD (k := 1) (by omega)

end Sys2Proof.Machine
end

section
/-! The two 7-bit-safe bytes of a 14-bit number, and the numbers such bytes are put together to (42_int7.md R140, R150). -/

namespace Sys2Proof.Machine

/-! ## From the number to its bytes -/

theorem low7_eq_mod (v : Word) : low7 v = BitVec.ofNat 8 (v.toNat % 128) := by
  apply BitVec.eq_of_toNat_eq
  simp only [low7, BitVec.toNat_setWidth, BitVec.extractLsb'_toNat, BitVec.toNat_ofNat, Nat.shiftRight_zero]

/-- Below 2^14 the quotient by 128 has no more than the 7 bits that are kept. -/
theorem high7_eq_div {v : Word} (h : v.toNat < 16384) : high7 v = BitVec.ofNat 8 (v.toNat / 128) := by
  apply BitVec.eq_of_toNat_eq
  simp only [high7, BitVec.toNat_setWidth, BitVec.extractLsb'_toNat, BitVec.toNat_ofNat, Nat.shiftRight_eq_div_pow]
  omega

theorem toNat_low7 (v : Word) : (low7 v).toNat = v.toNat % 128 := by
  rw [low7_eq_mod, BitVec.toNat_ofNat]
  omega

/-- Bits 6 to 0 alone are a 7-bit-safe byte (00_scope.md R8). -/
theorem toNat_low7_le (v : Word) : (low7 v).toNat ≤ 0x7F := by
  rw [toNat_low7]
  omega

theorem toNat_high7 {v : Word} (h : v.toNat < 16384) : (high7 v).toNat = v.toNat / 128 := by
  rw [high7_eq_div h, BitVec.toNat_ofNat]
  omega

/-! ## From the bytes to the number -/

/-- Joining a number below `2^k` under a number moved up by `k` bits adds them. -/
theorem toNat_shiftLeft_or {v w : Word} {k : Nat} (hw : w.toNat < 2 ^ k) (hv : v.toNat * 2 ^ k < 2 ^ 32) :
    (v <<< k ||| w).toNat = v.toNat * 2 ^ k + w.toNat := by
  rw [BitVec.toNat_or, BitVec.toNat_shiftLeft, Nat.shiftLeft_eq, Nat.mod_eq_of_lt hv, ← Nat.shiftLeft_eq,
    Nat.shiftLeft_add_eq_or_of_lt hw]

theorem toNat_join14 (hi : Byte) {lo : Byte} (hlo : lo.toNat ≤ 0x7F) :
    (join14 hi lo).toNat = hi.toNat * 128 + lo.toNat := by
  have hlt : hi.toNat < 256 := hi.isLt
  rw [join14, toNat_shiftLeft_or] <;> simp only [BitVec.toNat_setWidth] <;> omega

/-- A 21-bit number is its high byte above the 14-bit number of the other two. -/
theorem join21_eq (lo mid hi : Byte) : join21 lo mid hi = (hi.setWidth 32 <<< 14) ||| join14 mid lo := by
  rw [join21, join14, BitVec.or_comm (lo.setWidth 32), BitVec.or_comm]

theorem toNat_join21 {lo mid : Byte} (hi : Byte) (hlo : lo.toNat ≤ 0x7F) (hmid : mid.toNat ≤ 0x7F) :
    (join21 lo mid hi).toNat = lo.toNat + mid.toNat * 128 + hi.toNat * 16384 := by
  have hlt : hi.toNat < 256 := hi.isLt
  rw [join21_eq, toNat_shiftLeft_or] <;> simp only [BitVec.toNat_setWidth, toNat_join14 mid hlo] <;> omega

/-! ## There and back (42_int7.md R147) -/

theorem join14_high7_low7 {v : Word} (h : v.toNat < 16384) : join14 (high7 v) (low7 v) = v := by
  apply BitVec.eq_of_toNat_eq
  rw [toNat_join14 _ (toNat_low7_le v), toNat_high7 h, toNat_low7]
  omega

theorem toNat_join14_lt {hi lo : Byte} (hhi : hi.toNat ≤ 0x7F) (hlo : lo.toNat ≤ 0x7F) :
    (join14 hi lo).toNat < 16384 := by
  rw [toNat_join14 hi hlo]
  omega

theorem high7_join14 {hi lo : Byte} (hhi : hi.toNat ≤ 0x7F) (hlo : lo.toNat ≤ 0x7F) : high7 (join14 hi lo) = hi := by
  apply BitVec.eq_of_toNat_eq
  rw [toNat_high7 (toNat_join14_lt hhi hlo), toNat_join14 hi hlo]
  omega

theorem low7_join14 (hi : Byte) {lo : Byte} (hlo : lo.toNat ≤ 0x7F) : low7 (join14 hi lo) = lo := by
  apply BitVec.eq_of_toNat_eq
  rw [toNat_low7, toNat_join14 hi hlo]
  omega

/-! ## The two byte orders -/

/-- The high and the low byte as they stand on the wire (42_int7.md R140). -/
def wireBytes (o : ByteOrder) (hi lo : Byte) : List Byte :=
  match o with
  | .hl => [hi, lo]
  | .lh => [lo, hi]

@[simp] theorem wireBytes_length (o : ByteOrder) (hi lo : Byte) : (wireBytes o hi lo).length = 2 := by
  cases o <;> rfl

/-- Either byte on the wire is the high one, so a pair of 7-bit-safe bytes has a 7-bit-safe high and low byte. -/
theorem exists_wireBytes_eq (o : ByteOrder) {a b : Byte} (ha : a.toNat ≤ 0x7F) (hb : b.toNat ≤ 0x7F) :
    ∃ hi lo : Byte, [a, b] = wireBytes o hi lo ∧ hi.toNat ≤ 0x7F ∧ lo.toNat ≤ 0x7F := by
  cases o with
  | hl => exact ⟨a, b, rfl, ha, hb⟩
  | lh => exact ⟨b, a, rfl, hb, ha⟩

/-- Settles O45: the order of each field is a row of the table. -/
theorem protocolFieldOrders : Obligations.ProtocolFieldOrders :=
  ⟨rfl, rfl, rfl, rfl, rfl, rfl⟩

end Sys2Proof.Machine
end

section
/-! ENC14HL and ENC14LH (42_int7.md R142, R143): one command in two byte orders. -/

namespace Sys2Proof.Machine

variable {o : ByteOrder} {code : Byte} {s : State}

theorem commandResult_encode_range (o : ByteOrder) (h : s.arg.toNat ≥ 16384) :
    commandResult (encodeCommand o) s = .error .range := by
  have harg : argValue s > 16383 := h
  cases o with
  | hl => exact if_pos harg
  | lh => exact if_pos harg

theorem commandResult_encode (o : ByteOrder) (h : s.arg.toNat < 16384) :
    commandResult (encodeCommand o) s =
      .ok { out := some (wireBytes o (high7 s.arg) (low7 s.arg)), res := some s.arg } := by
  have harg : ¬ argValue s > 16383 := Nat.not_lt.2 (Nat.le_of_lt_succ h)
  cases o with
  | hl => exact if_neg harg
  | lh => exact if_neg harg

/-- Below 2^14 the encoder completes with the number's two bytes in OBUF and the number itself in RES. -/
theorem encode_completes (hc : commandCode (encodeCommand o) = some code) (h : s.arg.toNat < 16384)
    (hwf : Memory.wf s.obuf) :
    ∃ t, exec (encodeCommand o) s = .next t ∧ Completes code s t ∧
      WritesOut (wireBytes o (high7 s.arg) (low7 s.arg)) s t ∧ t.res = s.arg ∧ t.frm = s.frm :=
  exec_command_writes hc (commandResult_encode o h) rfl hwf

/-- The encoder on both sides of 2^14, its bytes written as quotient and remainder. -/
theorem encode_result (hc : commandCode (encodeCommand o) = some code) :
    (s.arg.toNat ≥ 16384 → ∃ t, exec (encodeCommand o) s = .next t ∧ FaultsWith code .range s t) ∧
      (s.arg.toNat < 16384 → Memory.wf s.obuf → ∃ t, exec (encodeCommand o) s = .next t ∧ Completes code s t ∧
        WritesOut (wireBytes o (BitVec.ofNat 8 (s.arg.toNat / 128)) (BitVec.ofNat 8 (s.arg.toNat % 128))) s t ∧
        t.res = s.arg ∧ t.frm = s.frm) := by
  refine ⟨fun h => exec_command_error hc (commandResult_encode_range o h), fun h hwf => ?_⟩
  rw [← high7_eq_div h, ← low7_eq_mod]
  exact encode_completes hc h hwf

/-- Settles O39: the encoder's result with the high byte first. -/
theorem enc14hlResult : Obligations.Enc14hlResult := fun _ => encode_result (o := .hl) rfl

/-- Settles O40: the encoder's result with the low byte first. -/
theorem enc14lhResult : Obligations.Enc14lhResult := fun _ => encode_result (o := .lh) rfl

end Sys2Proof.Machine
end

section
/-! DEC14HL and DEC14LH (42_int7.md R145, R146), one command in two byte orders, and DEC21 (R151). -/

namespace Sys2Proof.Machine

theorem inputByte_of_inputIs {f : List Byte} {s : State} (h : InputIs f s) {k : Nat} (hk : k < f.length) :
    inputByte s k = f.getD k 0x00#8 := by
  obtain ⟨-, -, hread⟩ := h
  exact hread k hk

theorem isSafe7_eq_false_iff {b : Byte} : isSafe7 b = false ↔ b.toNat > 0x7F := by
  rw [isSafe7, decide_eq_false_iff_not, Nat.not_le]

/-- E_DATA8's condition on two bytes and on three: some byte has bit 7 set (42_int7.md R145, R151). -/
theorem notBothSafe7_iff {a b : Byte} : (!(isSafe7 a && isSafe7 b)) = true ↔ a.toNat > 0x7F ∨ b.toNat > 0x7F := by
  rw [Bool.not_eq_true', Bool.and_eq_false_iff, isSafe7_eq_false_iff, isSafe7_eq_false_iff]

theorem notAllSafe7_iff {a b c : Byte} :
    (!(isSafe7 a && isSafe7 b && isSafe7 c)) = true ↔ a.toNat > 0x7F ∨ b.toNat > 0x7F ∨ c.toNat > 0x7F := by
  rw [Bool.and_assoc, Bool.not_and, Bool.or_eq_true, notBothSafe7_iff, Bool.not_eq_true', isSafe7_eq_false_iff]

/-! ## Two bytes -/

section
variable {o : ByteOrder} {code hi lo : Byte} {s : State}

theorem commandResult_decode_length (o : ByteOrder) (hbuf : ilenLen s ≤ s.bufBytes.val) (hlen : ilenLen s ≠ 2) :
    commandResult (decodeCommand o) s = .error .length := by
  cases o with
  | hl => exact (checkedBody_inside hbuf).trans (if_pos hlen)
  | lh => exact (checkedBody_inside hbuf).trans (if_pos hlen)

/-- On two bytes the decoder checks both and joins them; the order only says which byte is which. -/
theorem commandResult_decode_pair (h : InputIs (wireBytes o hi lo) s) :
    commandResult (decodeCommand o) s =
      if hi.toNat > 0x7F ∨ lo.toNat > 0x7F then .error .data8 else .ok { res := some (join14 hi lo) } := by
  have hlen : ilenLen s = 2 := h.1.trans (wireBytes_length o hi lo)
  have h0 := inputByte_of_inputIs h (k := 0) (by simp)
  have h1 := inputByte_of_inputIs h (k := 1) (by simp)
  cases o with
  | hl =>
    rw [decodeCommand, commandResult, checkedBody_of_inputIs h, dec14hlBody, if_neg (not_not.2 hlen), h0, h1]
    exact if_congr notBothSafe7_iff rfl rfl
  | lh =>
    rw [decodeCommand, commandResult, checkedBody_of_inputIs h, dec14lhBody, if_neg (not_not.2 hlen), h0, h1]
    exact if_congr (notBothSafe7_iff.trans or_comm) rfl rfl

theorem commandResult_decode_data8 (h : InputIs (wireBytes o hi lo) s) (hbit7 : hi.toNat > 0x7F ∨ lo.toNat > 0x7F) :
    commandResult (decodeCommand o) s = .error .data8 :=
  (commandResult_decode_pair h).trans (if_pos hbit7)

theorem commandResult_decode (h : InputIs (wireBytes o hi lo) s) (hhi : hi.toNat ≤ 0x7F) (hlo : lo.toNat ≤ 0x7F) :
    commandResult (decodeCommand o) s = .ok { res := some (join14 hi lo) } :=
  (commandResult_decode_pair h).trans (if_neg (by omega))

/-- On two 7-bit-safe bytes the decoder completes with the joined number in RES and no other output. -/
theorem decode_completes (hc : commandCode (decodeCommand o) = some code) (h : InputIs (wireBytes o hi lo) s)
    (hhi : hi.toNat ≤ 0x7F) (hlo : lo.toNat ≤ 0x7F) :
    ∃ t, exec (decodeCommand o) s = .next t ∧ Completes code s t ∧
      t.res = join14 hi lo ∧ t.olen = s.olen ∧ t.obuf = s.obuf ∧ t.frm = s.frm := by
  obtain ⟨hexec, hdone⟩ := exec_command_ok hc (commandResult_decode h hhi hlo)
  exact ⟨_, hexec, hdone, rfl, rfl, rfl, rfl⟩

/-- The decoder on every input: E_BOUNDS, then E_LENGTH, then E_DATA8, then the number. -/
theorem decode_result (hc : commandCode (decodeCommand o) = some code) :
    (ilenLen s > s.bufBytes.val → ∃ t, exec (decodeCommand o) s = .next t ∧ FaultsWith code .bounds s t) ∧
      (ilenLen s ≤ s.bufBytes.val → ilenLen s ≠ 2 →
        ∃ t, exec (decodeCommand o) s = .next t ∧ FaultsWith code .length s t) ∧
      ∀ hi lo : Byte, InputIs (wireBytes o hi lo) s →
        (hi.toNat > 0x7F ∨ lo.toNat > 0x7F →
          ∃ t, exec (decodeCommand o) s = .next t ∧ FaultsWith code .data8 s t) ∧
        (hi.toNat ≤ 0x7F → lo.toNat ≤ 0x7F → ∃ t, exec (decodeCommand o) s = .next t ∧ Completes code s t ∧
          t.res.toNat = hi.toNat * 128 + lo.toNat ∧ t.olen = s.olen ∧ t.obuf = s.obuf ∧ t.frm = s.frm) := by
  refine ⟨longInputFaultsBounds _ code s hc (by cases o <;> decide), fun hbuf hlen => ?_,
    fun hi lo h => ⟨fun hbit7 => ?_, fun hhi hlo => ?_⟩⟩
  · exact exec_command_error hc (commandResult_decode_length o hbuf hlen)
  · exact exec_command_error hc (commandResult_decode_data8 h hbit7)
  · obtain ⟨t, hexec, hdone, hres, hkeeps⟩ := decode_completes hc h hhi hlo
    exact ⟨t, hexec, hdone, by rw [hres, toNat_join14 hi hlo], hkeeps⟩

end

/-- Settles O41: the decoder's result on `[a, b]`, whose high byte is `a`. -/
theorem dec14hlResult : Obligations.Dec14hlResult := fun _ => decode_result (o := .hl) rfl

/-- Settles O42: the decoder's result on `[a, b]`, whose high byte is `b`. -/
theorem dec14lhResult : Obligations.Dec14lhResult := by
  intro s
  obtain ⟨hbounds, hlength, hpair⟩ := decode_result (o := .lh) (s := s) rfl
  refine ⟨hbounds, hlength, fun a b h => ?_⟩
  obtain ⟨hdata8, hnumber⟩ := hpair b a h
  rw [Nat.add_comm] at hnumber
  exact ⟨fun hbit7 => hdata8 hbit7.symm, fun ha hb => hnumber hb ha⟩

/-! ## Three bytes -/

section
variable {a b c : Byte} {s : State}

theorem commandResult_dec21_length (hbuf : ilenLen s ≤ s.bufBytes.val) (hlen : ilenLen s ≠ 3) :
    commandResult .dec21 s = .error .length :=
  (checkedBody_inside hbuf).trans (if_pos hlen)

theorem commandResult_dec21 (h : InputIs [a, b, c] s) :
    commandResult .dec21 s =
      if a.toNat > 0x7F ∨ b.toNat > 0x7F ∨ c.toNat > 0x7F then .error .data8
      else .ok { res := some (join21 a b c) } := by
  have hlen : ilenLen s = 3 := h.1
  have h0 := inputByte_of_inputIs h (k := 0) (by simp)
  have h1 := inputByte_of_inputIs h (k := 1) (by simp)
  have h2 := inputByte_of_inputIs h (k := 2) (by simp)
  rw [commandResult, checkedBody_of_inputIs h, dec21Body, if_neg (not_not.2 hlen), h0, h1, h2]
  exact if_congr notAllSafe7_iff rfl rfl

end

/-- Settles O43: the first byte is the low one (42_int7.md R150). -/
theorem dec21Result : Obligations.Dec21Result := by
  intro s
  refine ⟨longInputFaultsBounds .dec21 0x14#8 s rfl (by decide), fun hbuf hlen => ?_, fun a b c h => ⟨fun hbit7 => ?_,
    fun ha hb hc => ?_⟩⟩
  · exact exec_command_error rfl (commandResult_dec21_length hbuf hlen)
  · exact exec_command_error rfl ((commandResult_dec21 h).trans (if_pos hbit7))
  · obtain ⟨hexec, hdone⟩ := exec_command_ok rfl ((commandResult_dec21 h).trans (if_neg (by omega)))
    exact ⟨_, hexec, hdone, toNat_join21 c ha hb, rfl, rfl, rfl⟩

end Sys2Proof.Machine
end

section
/-! The 14-bit laws (42_int7.md R147): the encoder and the decoder of one byte order undo each other, and the two decoders
read each other's bytes. -/

namespace Sys2Proof.Machine

variable {o : ByteOrder} {s t u : State}

/-- Both 14-bit commands of an order have a code (30_encoding.md R73). -/
theorem exists_code_encodeCommand (o : ByteOrder) : ∃ code, commandCode (encodeCommand o) = some code := by
  cases o <;> exact ⟨_, rfl⟩

theorem exists_code_decodeCommand (o : ByteOrder) : ∃ code, commandCode (decodeCommand o) = some code := by
  cases o <;> exact ⟨_, rfl⟩

/-- The bytes of the encoded number are the decoder's input, and they join to the number. -/
theorem decode_of_encode (h : s.arg.toNat < 16384) (hwf : Memory.wf s.obuf)
    (hexec : exec (encodeCommand o) s = .next t) (hfeed : FeedsTo t u) :
    ∃ v, exec (decodeCommand o) u = .next v ∧ statusDone v.status = true ∧ v.res = s.arg := by
  obtain ⟨ecode, hecode⟩ := exists_code_encodeCommand o
  obtain ⟨dcode, hdcode⟩ := exists_code_decodeCommand o
  obtain ⟨t', hexec', hdone, hout, -⟩ := encode_completes hecode h hwf
  cases hexec'.symm.trans hexec
  have hmin : 64 ≤ s.bufBytes.val := s.bufBytes.2.1
  have hinput : InputIs (wireBytes o (high7 s.arg) (low7 s.arg)) u :=
    inputIs_of_feedsTo hdone hout (by rw [wireBytes_length]; omega) hfeed
  have hhigh : (high7 s.arg).toNat ≤ 0x7F := by
    rw [toNat_high7 h]
    omega
  obtain ⟨v, hv, ⟨-, hvdone, -⟩, hres, -⟩ := decode_completes hdcode hinput hhigh (toNat_low7_le s.arg)
  exact ⟨v, hv, hvdone, hres.trans (join14_high7_low7 h)⟩

/-- The number joined from two 7-bit-safe bytes is below 2^14, and its bytes are those two. -/
theorem encode_of_decode {hi lo : Byte} (h : InputIs (wireBytes o hi lo) s) (hhi : hi.toNat ≤ 0x7F)
    (hlo : lo.toNat ≤ 0x7F) (hexec : exec (decodeCommand o) s = .next t) (harg : u.arg = t.res)
    (hwf : Memory.wf u.obuf) :
    ∃ v, exec (encodeCommand o) u = .next v ∧ statusDone v.status = true ∧ WritesOut (wireBytes o hi lo) u v := by
  obtain ⟨ecode, hecode⟩ := exists_code_encodeCommand o
  obtain ⟨dcode, hdcode⟩ := exists_code_decodeCommand o
  obtain ⟨t', hexec', -, hres, -⟩ := decode_completes hdcode h hhi hlo
  cases hexec'.symm.trans hexec
  have hjoin : u.arg = join14 hi lo := harg.trans hres
  have hlt : u.arg.toNat < 16384 := hjoin ▸ toNat_join14_lt hhi hlo
  obtain ⟨v, hv, ⟨-, hvdone, -⟩, hout, -⟩ := encode_completes hecode hlt hwf
  rw [hjoin, high7_join14 hhi hlo, low7_join14 hi hlo] at hout
  exact ⟨v, hv, hvdone, hout⟩

/-- Both decoders join the same high and low byte. -/
theorem dec14lh_eq_dec14hl_swapped {v : State} {a b : Byte} (hs : InputIs [a, b] s) (hu : InputIs [b, a] u)
    (ha : a.toNat ≤ 0x7F) (hb : b.toNat ≤ 0x7F) (hlh : exec .dec14lh s = .next t) (hhl : exec .dec14hl u = .next v) :
    t.res = v.res := by
  obtain ⟨t', hlh', -, htres, -⟩ := decode_completes (o := .lh) rfl hs hb ha
  obtain ⟨v', hhl', -, hvres, -⟩ := decode_completes (o := .hl) rfl hu hb ha
  cases hlh'.symm.trans hlh
  cases hhl'.symm.trans hhl
  exact htres.trans hvres.symm

/-- Settles O44: there and back in either order, and the two orders' decoders against each other. -/
theorem fourteenBitLaws : Obligations.FourteenBitLaws := by
  refine ⟨fun o s t u h hwf hexec hfeed => ?_, fun o s t u a b h ha hb hexec harg hwf => ?_,
    fun s t u v a b hs hu ha hb => ?_⟩
  · exact decode_of_encode (Nat.lt_succ_of_le h) hwf hexec hfeed
  · obtain ⟨hi, lo, hwire, hhi, hlo⟩ := exists_wireBytes_eq o ha hb
    rw [hwire] at h ⊢
    exact encode_of_decode h hhi hlo hexec harg hwf
  · exact dec14lh_eq_dec14hl_swapped hs hu ha hb

end Sys2Proof.Machine
end

section
/-! The two 32-byte name commands (43_names.md R171 to R175): what NAMEENC32 writes, what NAMEDEC32 reads off a window,
and the second after the first. -/

namespace Sys2Proof.Machine

/-! ## NAMEENC32 -/

theorem keptCodes_eq (f : List Byte) : keptCodes f = f.filter fun b => decide (b.toNat ≤ 0x7F) := rfl

theorem commandResult_nameenc32_length {f : List Byte} {s : State} (h : InputIs f s)
    (hlen : (keptCodes f).length > 32) : commandResult .nameenc32 s = .error .length := by
  rw [commandResult, checkedBody_of_inputIs h, nameenc32Body, inputBytes_of_inputIs h, if_pos hlen]

theorem commandResult_nameenc32 {f : List Byte} {s : State} (h : InputIs f s) (hlen : (keptCodes f).length ≤ 32) :
    commandResult .nameenc32 s =
      .ok { out := some (padName (keptCodes f)), res := some (lengthWord (keptCodes f).length) } := by
  rw [commandResult, checkedBody_of_inputIs h, nameenc32Body, inputBytes_of_inputIs h, if_neg (Nat.not_lt.2 hlen)]

/-- A text with at most 32 ASCII codes completes with the padded codes in OBUF and their number in RES. -/
theorem nameenc32_completes {f : List Byte} {s : State} (h : InputIs f s) (hlen : (keptCodes f).length ≤ 32)
    (hwf : Memory.wf s.obuf) :
    ∃ t, exec .nameenc32 s = .next t ∧ Completes 0x20#8 s t ∧ WritesOut (padName (keptCodes f)) s t ∧
      t.res = BitVec.ofNat 32 (keptCodes f).length ∧ t.frm = s.frm := by
  rw [← lengthWord_eq (by omega)]
  exact exec_command_writes rfl (commandResult_nameenc32 h hlen) rfl hwf

/-- Settles O46: only the codes that are kept count against the 32. -/
theorem nameenc32Result : Obligations.Nameenc32Result := by
  intro s
  refine ⟨longInputFaultsBounds .nameenc32 0x20#8 s rfl (by decide), ?_⟩
  rintro f _ h rfl
  refine ⟨fun hlen => exec_command_error rfl (commandResult_nameenc32_length h hlen), fun hlen hwf => ?_⟩
  obtain ⟨t, hexec, hdone, hout, hres, hfrm⟩ := nameenc32_completes h hlen hwf
  have holen : t.olen = 32#32 := by rw [hout.1, padName_length (kept := keptCodes f) hlen]
  exact ⟨t, hexec, hdone, hout, holen, hres, hfrm⟩

/-- The input sequence of a state whose ILEN.LEN fits IBUF. -/
theorem inputIs_inputBytes {s : State} (h : ilenLen s ≤ s.bufBytes.val) : InputIs (inputBytes s) s := by
  have hlen : (inputBytes s).length = ilenLen s := inputBytes_length s
  exact ⟨hlen.symm, hlen.trans_le h, fun k hk => (inputBytes_getD (hlen ▸ hk)).symm⟩

theorem statusErr_of_faultsWith {code : Byte} {f : CmdFault} {s t : State} (h : FaultsWith code f s t) :
    statusErr t.status = true := by
  obtain ⟨-, -, herr, -⟩ := h
  exact herr

/-- A NAMEENC32 that ends without ERR has passed both its checks. -/
theorem nameenc32_checks_passed {s t : State} (hexec : exec .nameenc32 s = .next t)
    (herr : statusErr t.status = false) :
    ilenLen s ≤ s.bufBytes.val ∧ (keptCodes (inputBytes s)).length ≤ 32 := by
  obtain ⟨hbounds, hinput⟩ := nameenc32Result s
  have hnofault : ∀ f, ¬ ∃ t', exec .nameenc32 s = .next t' ∧ FaultsWith 0x20#8 f s t' := by
    rintro f ⟨t', hexec', hfault⟩
    cases hexec'.symm.trans hexec
    simp [statusErr_of_faultsWith hfault] at herr
  have hfits : ilenLen s ≤ s.bufBytes.val := Nat.not_lt.1 fun hl => hnofault _ (hbounds hl)
  obtain ⟨hlength, -⟩ := hinput _ _ (inputIs_inputBytes hfits) rfl
  exact ⟨hfits, Nat.not_lt.1 fun hl => hnofault _ (hlength hl)⟩

/-- A kept code has bit 7 clear, and so has the padding. -/
theorem padName_safe7 {f : List Byte} {b : Byte} (hb : b ∈ padName (keptCodes f)) : b.toNat ≤ 0x7F := by
  rcases List.mem_append.1 hb with hkept | hpad
  · exact of_decide_eq_true (List.mem_filter.1 hkept).2
  · rw [List.eq_of_mem_replicate hpad]
    decide

/-- Settles O47: without a fault the output is the padded name. -/
theorem encodedNameIsAlways32SafeBytes : Obligations.EncodedNameIsAlways32SafeBytes := by
  intro s t hwf hexec herr
  obtain ⟨hfits, hlen⟩ := nameenc32_checks_passed hexec herr
  obtain ⟨t', hexec', -, ⟨holen, hread⟩, -⟩ := nameenc32_completes (inputIs_inputBytes hfits) hlen hwf
  cases hexec'.symm.trans hexec
  rw [padName_length hlen] at holen hread
  refine ⟨holen, fun k hk => ?_⟩
  have hk' : k < (padName (keptCodes (inputBytes s))).length := by rwa [padName_length hlen]
  rw [hread k, if_pos hk, List.getD_eq_getElem _ _ hk']
  exact padName_safe7 (List.getElem_mem hk')

/-! ## NAMEDEC32 -/

/-- E_DATA8's condition on a sequence: some byte has bit 7 set (43_names.md R173, R190). -/
theorem notAllSafe7_iff_exists {l : List Byte} : (!l.all isSafe7) = true ↔ ∃ b ∈ l, b.toNat > 0x7F := by
  simp only [Bool.not_eq_true', List.all_eq_false, Bool.not_eq_true, isSafe7_eq_false_iff]

theorem commandResult_namedec32_length {s : State} (hbuf : ilenLen s ≤ s.bufBytes.val) (hlen : ilenLen s ≠ 32) :
    commandResult .namedec32 s = .error .length :=
  (checkedBody_inside hbuf).trans (if_pos hlen)

/-- On a window of 32 bytes the decoder checks bit 7 of each and then trims. -/
theorem commandResult_namedec32 {w : List Byte} {s : State} (h : InputIs w s) (hlen : w.length = 32) :
    commandResult .namedec32 s =
      if ∃ b ∈ w, b.toNat > 0x7F then .error .data8
      else .ok { out := some (windowName w), res := some (lengthWord (windowName w).length) } := by
  rw [commandResult, checkedBody_of_inputIs h, namedec32Body, if_neg (not_not.2 (h.1.trans hlen)),
    inputBytes_of_inputIs h]
  exact if_congr notAllSafe7_iff_exists rfl rfl

/-- A window of 32 7-bit-safe bytes completes with its name in OBUF and the name's length in RES. -/
theorem namedec32_completes {w : List Byte} {s : State} (h : InputIs w s) (hlen : w.length = 32)
    (hsafe : ∀ b ∈ w, b.toNat ≤ 0x7F) (hwf : Memory.wf s.obuf) :
    ∃ t, exec .namedec32 s = .next t ∧ Completes 0x21#8 s t ∧ WritesOut (windowName w) s t ∧
      t.res = BitVec.ofNat 32 (windowName w).length ∧ t.frm = s.frm := by
  have hshort : (windowName w).length ≤ w.length := windowName_length_le w
  have hno : ¬ ∃ b ∈ w, b.toNat > 0x7F := fun ⟨b, hb, hbit7⟩ => Nat.not_lt.2 (hsafe b hb) hbit7
  rw [← lengthWord_eq (by omega)]
  exact exec_command_writes rfl ((commandResult_namedec32 h hlen).trans (if_neg hno)) rfl hwf

/-- The name in a window, with the whitespace set of 43_names.md R174. -/
theorem windowName_eq (w : List Byte) :
    windowName w =
      (w.filter fun b => decide (b ≠ 0x00#8)).rdropWhile fun b => decide (b ∈ Spec.whitespace) := by
  have hspace : isSpace = fun b => decide (b ∈ Spec.whitespace) := funext fun b => List.contains_eq_mem b _
  have hzero : (fun b : Byte => b != 0x00#8) = fun b => decide (b ≠ 0x00#8) := funext fun b => (decide_not ..).symm
  rw [windowName, hzero, trimTrailing, hspace, List.rdropWhile]

/-- Trimming splits a sequence into what is left and a tail that meets the predicate. -/
theorem exists_rdropWhile_split {α : Type} (p : α → Bool) (l : List α) :
    ∃ tail, l = l.rdropWhile p ++ tail ∧ (∀ a ∈ tail, p a = true) ∧
      ∀ a, (l.rdropWhile p).getLast? = some a → p a = false := by
  refine ⟨l.rtakeWhile p, List.rdropWhile_append_rtakeWhile.symm, fun a => List.mem_rtakeWhile_imp, fun a ha => ?_⟩
  obtain ⟨hne, rfl⟩ := List.mem_getLast?_eq_getLast ha
  simpa using List.rdropWhile_last_not p l hne

/-- Settles O48: the tail is what the trim dropped. -/
theorem namedec32Result : Obligations.Namedec32Result := by
  intro s
  refine ⟨longInputFaultsBounds .namedec32 0x21#8 s rfl (by decide), fun hbuf hlen => ?_, fun w h hlen =>
    ⟨fun hbit7 => ?_, fun hsafe hwf => ?_⟩⟩
  · exact exec_command_error rfl (commandResult_namedec32_length hbuf hlen)
  · exact exec_command_error rfl ((commandResult_namedec32 h hlen).trans (if_pos hbit7))
  · obtain ⟨t, hexec, hdone, hout, hres, hfrm⟩ := namedec32_completes h hlen hsafe hwf
    obtain ⟨tail, hsplit, htail, hlast⟩ :=
      exists_rdropWhile_split (fun b => decide (b ∈ Spec.whitespace)) (w.filter fun b => decide (b ≠ 0x00#8))
    rw [← windowName_eq] at hsplit hlast
    exact ⟨t, windowName w, tail, hexec, hdone, hsplit, fun b hb => of_decide_eq_true (htail b hb),
      fun b hb => of_decide_eq_false (hlast b hb), hout, hres, hfrm⟩

/-! ## There and back -/

/-- A tail of one repeated element that meets the predicate is trimmed whole. -/
theorem rdropWhile_append_replicate {α : Type} (p : α → Bool) (l : List α) (n : Nat) {a : α} (ha : p a = true) :
    (l ++ List.replicate n a).rdropWhile p = l.rdropWhile p := by
  induction n with
  | zero => simp
  | succ n ih => rw [List.replicate_succ', ← List.append_assoc, List.rdropWhile_concat_pos p _ a ha, ih]

/-- The padding is whitespace: the name in a padded name is the name in the codes. -/
theorem windowName_padName (kept : List Byte) : windowName (padName kept) = windowName kept := by
  have hpad : ∀ n, (List.replicate n 0x20#8).filter (fun b : Byte => decide (b ≠ 0x00#8)) = List.replicate n 0x20#8 :=
    fun n => List.filter_replicate_of_pos (by decide)
  rw [windowName_eq, windowName_eq, padName, List.filter_append, hpad, rdropWhile_append_replicate _ _ _ (by decide)]

/-- Codes 0x01 to 0x7F that do not end in whitespace lose nothing to the filters or the trim. -/
theorem windowName_keptCodes_self {f : List Byte} (hcodes : ∀ b ∈ f, 0x01 ≤ b.toNat ∧ b.toNat ≤ 0x7F)
    (hlast : ∀ b, f.getLast? = some b → b ∉ Spec.whitespace) : windowName (keptCodes f) = f := by
  have hascii : keptCodes f = f := List.filter_eq_self.2 fun b hb => decide_eq_true (hcodes b hb).2
  have hnonzero : f.filter (fun b => decide (b ≠ 0x00#8)) = f := by
    refine List.filter_eq_self.2 fun b hb => decide_eq_true ?_
    rintro rfl
    exact absurd (hcodes _ hb).1 (by decide)
  rw [hascii, windowName_eq, hnonzero, List.rdropWhile_eq_self_iff]
  intro hne hspace
  exact hlast _ (List.getLast?_eq_some_getLast hne) (of_decide_eq_true hspace)

/-- Settles O49: the padded name is NAMEDEC32's window, and its name is the name in the kept codes. -/
theorem nameRoundTrip : Obligations.NameRoundTrip := by
  intro s t u f h hlen hs hu hexec hfeed
  obtain ⟨t', hexec', hdone, hout, -⟩ := nameenc32_completes h hlen hs
  cases hexec'.symm.trans hexec
  have hmin : 64 ≤ s.bufBytes.val := s.bufBytes.2.1
  have hpad : (padName (keptCodes f)).length = 32 := padName_length hlen
  have hwindow : InputIs (padName (keptCodes f)) u := inputIs_of_feedsTo hdone hout (by omega) hfeed
  obtain ⟨v, hv, hvdone, hname, -⟩ := namedec32_completes hwindow hpad (fun b => padName_safe7) hu
  rw [windowName_padName] at hname
  refine ⟨v, hv, hvdone, ?_, fun hcodes hlast => ?_⟩
  · rwa [windowName_eq, keptCodes_eq] at hname
  · rwa [windowName_keptCodes_self hcodes hlast] at hname

end Sys2Proof.Machine
end

section
/-! The packer's output (43_names.md R180 to R183): the meaning's recursion is the rule's loop, and each byte of it is the OR
of what the codes put there. -/

namespace Sys2Proof.Machine

/-! ## One round of the loop -/

/-- The high bits of the code at index `i`, as they are ORed into the last byte (43_names.md R180). -/
def highPart (f : List Byte) (i : Nat) : Byte := f.getD i 0x00#8 >>> packShift i

/-- The low bits of the code at index `i`, as they are appended (43_names.md R180). -/
def lowPart (f : List Byte) (i : Nat) : Byte := (f.getD i 0x00#8 <<< (7 - packShift i)) &&& 0x7F#8

/-- The output that round `i` starts from: in mode 1 with a fresh last byte at a group boundary (43_names.md R181). -/
def roundStart (m : Bool) (out : List Byte) (i : Nat) : List Byte :=
  if m = true ∧ i > 0 ∧ i % 7 = 0 then out ++ [0x00#8] else out

theorem packRound_eq (m : Bool) (f out : List Byte) (i : Nat) :
    Spec.packRound m f out i =
      (roundStart m out i).dropLast ++ [(roundStart m out i).getLastD 0x00#8 ||| highPart f i, lowPart f i] := by
  rw [lowPart, show 7 - packShift i = 8 - packShift i - 1 from Nat.sub_right_comm 8 1 (packShift i)]
  rfl

theorem packPart_eq (m : Bool) (f : List Byte) (j i : Nat) :
    Spec.packPart m f j i =
      (if packIndex i m = j then highPart f i else 0x00#8) |||
        if packIndex i m + 1 = j then lowPart f i else 0x00#8 := rfl

/-- A step of the packer's recursion starts from the same output as a round of the loop, and adds the same two parts. -/
theorem append_packFrom_cons (m : Bool) {f cs : List Byte} {c : Byte} {i : Nat} (hc : f.getD i 0x00#8 = c)
    (acc : List Byte) (last : Byte) :
    ∃ acc', Spec.packRound m f (acc ++ [last]) i = acc' ++ [lowPart f i] ∧
      acc ++ packFrom m i last (c :: cs) = acc' ++ packFrom m (i + 1) (lowPart f i) cs := by
  subst hc
  rw [packRound_eq, roundStart, packFrom]
  by_cases hfresh : m = true ∧ i > 0 ∧ i % 7 = 0
  · rw [if_pos hfresh, if_pos (by simpa [and_assoc] using hfresh)]
    exact ⟨acc ++ [last] ++ [0x00#8 ||| highPart f i], by simp, by simp [highPart, lowPart]⟩
  · rw [if_neg hfresh, if_neg (by simpa [and_assoc] using hfresh)]
    exact ⟨acc ++ [last ||| highPart f i], by simp, by simp [highPart, lowPart]⟩

/-! ## The loop -/

/-- The output after the first `k` rounds of the loop of 43_names.md R183. -/
def packLoop (m : Bool) (f : List Byte) (k : Nat) : List Byte :=
  (List.range k).foldl (Spec.packRound m f) [0x00#8]

theorem packLoop_succ (m : Bool) (f : List Byte) (k : Nat) :
    packLoop m f (k + 1) = Spec.packRound m f (packLoop m f k) k := by
  rw [packLoop, List.range_succ, List.foldl_append]
  rfl

/-- The rounds for the codes from index `i` on do what the packer's recursion does from its last byte on. -/
theorem foldl_packRound_eq (m : Bool) {f cs : List Byte} {i : Nat} (hcs : f.drop i = cs) (acc : List Byte)
    (last : Byte) :
    (List.range' i cs.length).foldl (Spec.packRound m f) (acc ++ [last]) = acc ++ packFrom m i last cs := by
  induction cs generalizing i acc last with
  | nil => rfl
  | cons c cs ih =>
    have hc : f.getD i 0x00#8 = c := by
      rw [List.getD_eq_getElem?_getD, ← Nat.add_zero i, ← List.getElem?_drop, hcs]
      rfl
    have hcs' : f.drop (i + 1) = cs := by
      rw [← List.drop_drop, hcs]
      rfl
    obtain ⟨acc', hround, hstep⟩ := append_packFrom_cons m (cs := cs) hc acc last
    rw [List.length_cons, List.range'_succ, List.foldl_cons, hround, ih hcs', hstep]

/-- The packer's meaning is the rule's loop (43_names.md R183). -/
theorem packName_eq_packLoop (m : Bool) (f : List Byte) : packName m f = packLoop m f f.length := by
  rw [packLoop, List.range_eq_range']
  exact (foldl_packRound_eq m (List.drop_zero ..) [] 0x00#8).symm

/-! ## The place of each byte -/

theorem packedSize_succ (i : Nat) (m : Bool) : Spec.packedSize (i + 1) m = packIndex i m + 2 := by
  cases m with
  | false => rfl
  | true =>
    simp only [Spec.packedSize, packIndex, Bool.true_eq_false, if_false, if_true, if_neg (Nat.succ_ne_zero i)]
    omega

theorem lt_packedSize (n : Nat) (m : Bool) : n < Spec.packedSize n m := by
  rw [Spec.packedSize]
  split_ifs <;> omega

/-- The last byte of the output that round `i` starts from is byte `h(i)`. -/
theorem roundStart_length {m : Bool} {out : List Byte} {i : Nat} (h : out.length = Spec.packedSize i m) :
    (roundStart m out i).length = packIndex i m + 1 := by
  cases m with
  | false => simpa [roundStart, Spec.packedSize, packIndex] using h
  | true =>
    simp only [roundStart, apply_ite List.length, List.length_append, List.length_singleton, h, Spec.packedSize,
      packIndex, true_and, Bool.true_eq_false, if_false, if_true]
    split_ifs <;> omega

theorem roundStart_getD (m : Bool) (out : List Byte) (i j : Nat) :
    (roundStart m out i).getD j 0x00#8 = out.getD j 0x00#8 := by
  rw [roundStart]
  split
  · rcases Nat.lt_or_ge j out.length with hj | hj
    · rw [List.getD_append _ _ _ _ hj]
    · rw [List.getD_append_right _ _ _ _ hj, List.getD_eq_default _ _ hj]
      cases j - out.length <;> rfl
  · rfl

/-- The packer's output after `k` rounds has `PackedLength(k, m)` bytes (43_names.md R182). -/
theorem packLoop_length (m : Bool) (f : List Byte) (k : Nat) : (packLoop m f k).length = Spec.packedSize k m := by
  induction k with
  | zero => cases m <;> rfl
  | succ k ih => simp [packLoop_succ, packRound_eq, roundStart_length ih, packedSize_succ]

/-- ORing into the last byte and appending another changes those two bytes only. -/
theorem getD_or_last_append {out : List Byte} {p : Nat} (hlen : out.length = p + 1) (a b : Byte) (j : Nat) :
    (out.dropLast ++ [out.getLastD 0x00#8 ||| a, b]).getD j 0x00#8 =
      out.getD j 0x00#8 ||| ((if p = j then a else 0x00#8) ||| if p + 1 = j then b else 0x00#8) := by
  obtain ⟨acc, last, rfl⟩ := (List.eq_nil_or_concat' out).resolve_left (by rintro rfl; simp at hlen)
  obtain rfl : acc.length = p := by simpa using hlen
  rcases Nat.lt_trichotomy j acc.length with hj | rfl | hj
  · have hj0 : acc.length ≠ j := by omega
    have hj1 : acc.length + 1 ≠ j := by omega
    simp [List.getElem?_append_left hj, hj0, hj1]
  · simp
  · obtain ⟨d, rfl⟩ : ∃ d, j = acc.length + (d + 1) := ⟨j - acc.length - 1, by omega⟩
    cases d <;> simp

/-- Each byte of the output is the OR of what the codes put there (43_names.md R182). -/
theorem packLoop_getD (m : Bool) (f : List Byte) (k j : Nat) :
    (packLoop m f k).getD j 0x00#8 = (List.range k).foldl (fun x i => x ||| Spec.packPart m f j i) 0x00#8 := by
  induction k with
  | zero => cases j <;> rfl
  | succ k ih =>
    rw [packLoop_succ, packRound_eq, getD_or_last_append (roundStart_length (packLoop_length m f k)), roundStart_getD,
      ih, List.range_succ, List.foldl_append, ← packPart_eq]
    rfl

/-! ## The place of each bit -/

/-- A bit of an OR of bytes. -/
theorem getLsbD_foldl_or (l : List Nat) (g : Nat → Byte) (x : Byte) (q : Nat) :
    (l.foldl (fun x i => x ||| g i) x).getLsbD q = true ↔ x.getLsbD q = true ∨ ∃ i ∈ l, (g i).getLsbD q = true := by
  induction l generalizing x with
  | nil => simp
  | cons i l ih => simp [ih, or_assoc]

theorem highPart_getLsbD (f : List Byte) (i q : Nat) :
    (highPart f i).getLsbD q = (f.getD i 0x00#8).getLsbD (packShift i + q) := by
  rw [highPart, BitVec.getLsbD_ushiftRight]

theorem packShift_bounds (i : Nat) : 1 ≤ packShift i ∧ packShift i ≤ 7 := by
  rw [packShift]
  omega

/-- The mask of 43_names.md R180 keeps bits 6 to 0. -/
theorem getLsbD_mask7 (q : Nat) : (0x7F#8).getLsbD q = decide (q < 7) := by
  rcases Nat.lt_or_ge q 8 with hq | hq
  · revert q
    decide
  · rw [BitVec.getLsbD_of_ge _ _ hq, decide_eq_false (by omega)]

theorem lowPart_getLsbD (f : List Byte) (i q : Nat) :
    (lowPart f i).getLsbD q = true ↔
      q < 7 ∧ 7 - packShift i ≤ q ∧ (f.getD i 0x00#8).getLsbD (q - (7 - packShift i)) = true := by
  simp only [lowPart, BitVec.getLsbD_and, BitVec.getLsbD_shiftLeft, getLsbD_mask7, Bool.and_eq_true, Bool.not_eq_true',
    decide_eq_true_eq, decide_eq_false_iff_not, Nat.not_lt]
  constructor
  · rintro ⟨⟨⟨-, hlow⟩, hbit⟩, hq⟩
    exact ⟨hq, hlow, hbit⟩
  · rintro ⟨hq, hlow, hbit⟩
    exact ⟨⟨⟨by omega, hlow⟩, hbit⟩, hq⟩

/-- Bit `q` of what code `i` puts into byte `j` is the bit of the code that stands at that place of the stream
(43_names.md R182). -/
theorem packPart_getLsbD (m : Bool) (f : List Byte) (j i q : Nat) :
    (Spec.packPart m f j i).getLsbD q = true ↔
      q < 7 ∧ ∃ k, 7 * j + k = 7 * packIndex i m + packShift i + q ∧ (f.getD i 0x00#8).getLsbD k = true := by
  have hshift := packShift_bounds i
  rw [packPart_eq, BitVec.getLsbD_or, Bool.or_eq_true]
  constructor
  · rintro (hhigh | hlow)
    · split at hhigh
      case isTrue hj =>
        rw [highPart_getLsbD] at hhigh
        have := BitVec.lt_of_getLsbD hhigh
        exact ⟨by omega, _, by omega, hhigh⟩
      case isFalse => simp at hhigh
    · split at hlow
      case isTrue hj =>
        obtain ⟨hq, hle, hbit⟩ := (lowPart_getLsbD f i q).1 hlow
        exact ⟨hq, _, by omega, hbit⟩
      case isFalse => simp at hlow
  · rintro ⟨hq, k, hplace, hbit⟩
    have hk := BitVec.lt_of_getLsbD hbit
    obtain hj | hj : packIndex i m = j ∨ packIndex i m + 1 = j := by omega
    · left
      rwa [if_pos hj, highPart_getLsbD, show packShift i + q = k by omega]
    · right
      rw [if_pos hj, lowPart_getLsbD, show q - (7 - packShift i) = k by omega]
      exact ⟨hq, by omega, hbit⟩

theorem packName_getLsbD (m : Bool) (f : List Byte) (j q : Nat) :
    ((packName m f).getD j 0x00#8).getLsbD q = true ↔
      q < 7 ∧ ∃ i < f.length, ∃ k, 7 * j + k = 7 * packIndex i m + packShift i + q ∧
        (f.getD i 0x00#8).getLsbD k = true := by
  rw [packName_eq_packLoop, packLoop_getD, getLsbD_foldl_or]
  simp only [packPart_getLsbD, List.mem_range, BitVec.getLsbD_zero, Bool.false_eq_true, false_or]
  constructor
  · rintro ⟨i, hi, hq, hbit⟩
    exact ⟨hq, i, hi, hbit⟩
  · rintro ⟨hq, i, hi, hbit⟩
    exact ⟨i, hi, hq, hbit⟩

/-- Every packed byte is 7-bit-safe (43_names.md R184). -/
theorem packName_bit7 (m : Bool) (f : List Byte) (j : Nat) : ((packName m f).getD j 0x00#8).getLsbD 7 = false := by
  refine Bool.eq_false_iff.2 fun hbit => ?_
  obtain ⟨hlt, -⟩ := (packName_getLsbD m f j 7).1 hbit
  exact Nat.lt_irrefl 7 hlt

end Sys2Proof.Machine
end

section
/-! PACKB (43_names.md R183, R184): its result, the layout of its output, and how the two modes stand to each other. -/

namespace Sys2Proof.Machine

/-! ## PACKB -/

theorem commandResult_packb_overflow {f : List Byte} {s : State} (h : InputIs f s)
    (hlen : Spec.packedSize f.length (pkmode s) > s.bufBytes.val) : commandResult .packb s = .error .overflow := by
  rw [commandResult, checkedBody_of_inputIs h, packbBody, h.1, packedLength_eq_packedSize, if_pos hlen]

theorem commandResult_packb {f : List Byte} {s : State} (h : InputIs f s)
    (hlen : Spec.packedSize f.length (pkmode s) ≤ s.bufBytes.val) :
    commandResult .packb s =
      .ok { out := some (packName (pkmode s) f), res := some (lengthWord (packName (pkmode s) f).length) } := by
  rw [commandResult, checkedBody_of_inputIs h, packbBody, h.1, packedLength_eq_packedSize,
    if_neg (Nat.not_lt.2 hlen), inputBytes_of_inputIs h]

theorem packName_length_eq_packedSize (m : Bool) (f : List Byte) :
    (packName m f).length = Spec.packedSize f.length m := by
  rw [packName_length, packedLength_eq_packedSize]

/-- Codes whose packed bytes fit OBUF are packed whatever their values (43_names.md R183). -/
theorem packb_completes {f : List Byte} {s : State} (h : InputIs f s)
    (hlen : Spec.packedSize f.length (pkmode s) ≤ s.bufBytes.val) (hwf : Memory.wf s.obuf) :
    ∃ t, exec .packb s = .next t ∧ Completes 0x22#8 s t ∧ WritesOut (packName (pkmode s) f) s t ∧
      t.res = BitVec.ofNat 32 (Spec.packedSize f.length (pkmode s)) ∧ t.frm = s.frm := by
  have hmax : s.bufBytes.val ≤ 4096 := s.bufBytes.2.2
  rw [← lengthWord_eq (by omega), ← packName_length_eq_packedSize]
  exact exec_command_writes rfl (commandResult_packb h hlen) rfl hwf

/-- What a PACKB that was run has written, in the mode it ran in. -/
theorem writesOut_packName {m : Bool} {f : List Byte} {s t : State} (h : InputIs f s) (hm : pkmode s = m)
    (hlen : Spec.packedSize f.length m ≤ s.bufBytes.val) (hwf : Memory.wf s.obuf) (hexec : exec .packb s = .next t) :
    WritesOut (packName m f) s t := by
  subst hm
  obtain ⟨t', hexec', -, hout, -⟩ := packb_completes h hlen hwf
  cases hexec'.symm.trans hexec
  exact hout

/-- Settles O50: the output of the meaning is the loop's, and its length is PackedLength. -/
theorem packbFollowsTheWrittenLoop : Obligations.PackbFollowsTheWrittenLoop := by
  intro s
  refine ⟨longInputFaultsBounds .packb 0x22#8 s rfl (by decide), fun f h => ⟨fun hlen => ?_, fun hlen hwf => ?_⟩⟩
  · exact exec_command_error rfl (commandResult_packb_overflow h hlen)
  · obtain ⟨t, hexec, hdone, hout, hres, hfrm⟩ := packb_completes h hlen hwf
    have holen : t.olen = BitVec.ofNat 32 (Spec.packedSize f.length (pkmode s)) := by
      rw [hout.1, packName_length_eq_packedSize]
    rw [packName_eq_packLoop] at hout
    exact ⟨t, hexec, hdone, hout, holen, hres, hfrm⟩

/-! ## The layout -/

/-- Settles O51: the bytes of the loop are the ORs of the parts, and no part reaches bit 7. -/
theorem packedBytesHoldTheCodesBits : Obligations.PackedBytesHoldTheCodesBits := by
  intro s t f h hlen hwf hexec j hj
  obtain ⟨-, hread⟩ := writesOut_packName h rfl hlen hwf hexec
  have hbyte : Memory.read t.obuf j = (packName (pkmode s) f).getD j 0x00#8 := by
    rw [hread j, if_pos (by rwa [packName_length_eq_packedSize])]
  rw [hbyte]
  exact ⟨by rw [packName_eq_packLoop, packLoop_getD], packName_bit7 (pkmode s) f j⟩

/-! ## The two modes -/

/-- Up to 7 codes there is no group boundary (43_names.md R184). -/
theorem packName_modes_agree {f : List Byte} (hlen : f.length ≤ 7) : packName false f = packName true f := by
  rw [packName_eq_packLoop, packName_eq_packLoop]
  refine List.foldl_ext _ _ _ fun out i hi => ?_
  have hi' : i < f.length := List.mem_range.1 hi
  have hstart : ∀ m, roundStart m out i = out := fun m => if_neg (by omega)
  rw [packRound_eq, packRound_eq, hstart, hstart]

/-- Settles O52: both modes write the same bytes, for which there is room. -/
theorem packModesAgreeUpToSevenCodes : Obligations.PackModesAgreeUpToSevenCodes := by
  intro s t u v f hs hu hlen hms hmu hwfs hwfu hst huv
  have hsize : ∀ m, Spec.packedSize f.length m ≤ 64 := fun m => by
    rw [Spec.packedSize]
    split_ifs <;> omega
  have ht := writesOut_packName hs hms ((hsize false).trans s.bufBytes.2.1) hwfs hst
  have hv := writesOut_packName hu hmu ((hsize true).trans u.bufBytes.2.1) hwfu huv
  rw [← packName_modes_agree hlen] at hv
  have hlt : (packName false f).length < 65536 := by
    rw [packName_length_eq_packedSize]
    exact (hsize false).trans_lt (by decide)
  refine ⟨ht.1.trans hv.1.symm, fun k hk => ?_⟩
  rw [olenLen_of_writesOut ht hlt] at hk
  rw [ht.2 k, hv.2 k, if_pos hk, if_pos hk]

/-- In mode 0 the code that starts a group is ORed into the whole of the code before it (43_names.md R184). -/
theorem packName_merged_byte {f : List Byte} {g : Nat} (hg : 1 ≤ g) (hlt : 7 * g < f.length) :
    (packName false f).getD (7 * g) 0x00#8 =
      (f.getD (7 * g - 1) 0x00#8 &&& 0x7F#8) ||| (f.getD (7 * g) 0x00#8 >>> 1) := by
  refine BitVec.eq_of_getLsbD_eq fun q _ => Bool.eq_iff_iff.2 ?_
  rw [packName_getLsbD, BitVec.getLsbD_or, BitVec.getLsbD_and, getLsbD_mask7, BitVec.getLsbD_ushiftRight,
    Bool.or_eq_true, Bool.and_eq_true, decide_eq_true_eq]
  constructor
  · rintro ⟨hq, i, -, k, hplace, hbit⟩
    have hk := BitVec.lt_of_getLsbD hbit
    simp only [packIndex, packShift, Bool.false_eq_true, if_false] at hplace
    obtain rfl | rfl : i = 7 * g - 1 ∨ i = 7 * g := by omega
    · obtain rfl : k = q := by omega
      exact .inl ⟨hbit, hq⟩
    · obtain rfl : k = 1 + q := by omega
      exact .inr hbit
  · simp only [packIndex, packShift, Bool.false_eq_true, if_false]
    rintro (⟨hbit, hq⟩ | hbit)
    · exact ⟨hq, 7 * g - 1, by omega, q, by omega, hbit⟩
    · have hk := BitVec.lt_of_getLsbD hbit
      exact ⟨by omega, 7 * g, hlt, 1 + q, by omega, hbit⟩

/-- Settles O54: byte `7g` mixes two codes; on the spec's two names the packer evaluates to the same bytes. -/
theorem modeZeroMergesCodes : Obligations.ModeZeroMergesCodes := by
  refine ⟨fun s t f g h hm hlen hwf hg hlt hexec => ?_, fun s t u v hms hmu hwfs hwfu hs hu hst huv => ⟨?_, ?_⟩⟩
  · obtain ⟨-, hread⟩ := writesOut_packName h hm hlen hwf hexec
    rw [hread, packName_length_eq_packedSize, Spec.packedSize, if_pos rfl, if_pos (by omega),
      packName_merged_byte hg hlt]
  · exact writesOut_packName hs hms (le_trans (by decide) s.bufBytes.2.1) hwfs hst
  · exact writesOut_packName hu hmu (le_trans (by decide) u.bufBytes.2.1) hwfu huv

end Sys2Proof.Machine
end

section
/-! UNPACKB (43_names.md R190): its result, and UNPACKB of what PACKB built (R184). -/

namespace Sys2Proof.Machine

/-! ## UNPACKB -/

theorem commandResult_unpackb_range {f : List Byte} {s : State} (h : InputIs f s)
    (harg : s.arg.toNat > s.bufBytes.val) : commandResult .unpackb s = .error .range := by
  rw [commandResult, checkedBody_of_inputIs h]
  exact if_pos harg

theorem commandResult_unpackb_length {f : List Byte} {s : State} (h : InputIs f s)
    (harg : s.arg.toNat ≤ s.bufBytes.val) (hlen : f.length ≠ Spec.packedSize s.arg.toNat (pkmode s)) :
    commandResult .unpackb s = .error .length := by
  rw [← h.1, ← packedLength_eq_packedSize] at hlen
  rw [commandResult, checkedBody_of_inputIs h, unpackbBody, argValue, if_neg (Nat.not_lt.2 harg)]
  exact if_pos hlen

/-- On an input of PackedLength bytes the decoder checks bit 7 of each and then gives the codes. -/
theorem commandResult_unpackb {f : List Byte} {s : State} (h : InputIs f s) (harg : s.arg.toNat ≤ s.bufBytes.val)
    (hlen : f.length = Spec.packedSize s.arg.toNat (pkmode s)) :
    commandResult .unpackb s =
      if ∃ b ∈ f, b.toNat > 0x7F then .error .data8
      else .ok { out := some (unpackName (pkmode s) s.arg.toNat f), res := some (lengthWord s.arg.toNat) } := by
  rw [← h.1, ← packedLength_eq_packedSize] at hlen
  rw [commandResult, checkedBody_of_inputIs h, unpackbBody, argValue, if_neg (Nat.not_lt.2 harg), inputBytes_of_inputIs h]
  exact (if_neg (not_not.2 hlen)).trans (if_congr notAllSafe7_iff_exists rfl rfl)

/-- PackedLength 7-bit-safe bytes complete with the codes in OBUF and their number in RES. -/
theorem unpackb_completes {f : List Byte} {s : State} (h : InputIs f s) (harg : s.arg.toNat ≤ s.bufBytes.val)
    (hlen : f.length = Spec.packedSize s.arg.toNat (pkmode s)) (hsafe : ∀ b ∈ f, b.toNat ≤ 0x7F)
    (hwf : Memory.wf s.obuf) :
    ∃ t, exec .unpackb s = .next t ∧ Completes 0x23#8 s t ∧
      WritesOut (unpackName (pkmode s) s.arg.toNat f) s t ∧ t.res = BitVec.ofNat 32 s.arg.toNat ∧ t.frm = s.frm := by
  have hmax : s.bufBytes.val ≤ 4096 := s.bufBytes.2.2
  have hno : ¬ ∃ b ∈ f, b.toNat > 0x7F := fun ⟨b, hb, hbit7⟩ => Nat.not_lt.2 (hsafe b hb) hbit7
  rw [← lengthWord_eq (by omega)]
  exact exec_command_writes rfl ((commandResult_unpackb h harg hlen).trans (if_neg hno)) rfl hwf

theorem unpackName_getD (m : Bool) (f : List Byte) {n i : Nat} (hi : i < n) :
    (unpackName m n f).getD i 0x00#8 = unpackCode m f i := by
  simp [unpackName, hi]

/-- A decoded code as a number (43_names.md R190). -/
theorem toNat_unpackCode (m : Bool) (f : List Byte) (i : Nat) :
    (unpackCode m f i).toNat =
      (((f.getD (packIndex i m) 0x00#8).toNat <<< packShift i) &&& 0xFF) |||
        ((f.getD (packIndex i m + 1) 0x00#8).toNat >>> (7 - packShift i)) := by
  rw [unpackCode, BitVec.toNat_or, BitVec.toNat_shiftLeft, BitVec.toNat_ushiftRight, ← Nat.and_two_pow_sub_one_eq_mod]

/-- Settles O55: the checks come in the order range, length, data, and the codes are the formula's. -/
theorem unpackbResult : Obligations.UnpackbResult := by
  intro s
  refine ⟨longInputFaultsBounds .unpackb 0x23#8 s rfl (by decide), ?_⟩
  rintro f _ h rfl
  refine ⟨fun harg => ?_, fun harg hlen => ?_, fun harg hlen => ⟨fun hbit7 => ?_, fun hsafe hwf => ?_⟩⟩
  · exact exec_command_error rfl (commandResult_unpackb_range h harg)
  · exact exec_command_error rfl (commandResult_unpackb_length h harg hlen)
  · exact exec_command_error rfl ((commandResult_unpackb h harg hlen).trans (if_pos hbit7))
  · obtain ⟨t, hexec, hdone, hout, hres, hfrm⟩ := unpackb_completes h harg hlen hsafe hwf
    refine ⟨t, _, hexec, hdone, hout, unpackName_length .., hres, hfrm, fun i hi => ?_⟩
    rw [unpackName_getD _ _ hi]
    exact toNat_unpackCode (pkmode s) f i

/-! ## What PACKB built -/

theorem packName_safe7 {m : Bool} {f : List Byte} {b : Byte} (hb : b ∈ packName m f) : b.toNat ≤ 0x7F := by
  obtain ⟨j, hj, rfl⟩ := List.getElem_of_mem hb
  have hbit7 := packName_bit7 m f j
  rw [List.getD_eq_getElem _ _ hj] at hbit7
  rw [← decide_eq_true_iff (p := _ ≤ _), ← isSafe7, isSafe7_eq, hbit7, Bool.not_false]

/-- In mode 1, and for the first 7 codes in mode 0, the codes stand one after the other in the packed stream: 8 bits a
code, 7 a byte (43_names.md R182). -/
theorem packIndex_packShift {m : Bool} {i : Nat} (h : m = true ∨ i < 7) :
    7 * packIndex i m + packShift i = 8 * i + 1 := by
  rcases m with _ | _
  · have hi : i < 7 := by simpa using h
    simp only [packIndex, packShift, Bool.false_eq_true, if_false]
    omega
  · simp only [packIndex, packShift, if_true]
    omega

/-- Then no two codes share a place: the packed bit at the place of a code's bit is that bit. -/
theorem packName_getLsbD_of_place {m : Bool} {f : List Byte} (hm : m = true ∨ f.length ≤ 7) {i j k q : Nat}
    (hi : i < f.length) (hk : k < 8) (hq : q < 7) (hplace : 7 * j + k = 7 * packIndex i m + packShift i + q) :
    ((packName m f).getD j 0x00#8).getLsbD q = (f.getD i 0x00#8).getLsbD k := by
  rw [Bool.eq_iff_iff, packName_getLsbD]
  constructor
  · rintro ⟨-, i', hi', k', hplace', hbit⟩
    have hk' : k' < 8 := BitVec.lt_of_getLsbD hbit
    rw [packIndex_packShift (hm.imp_right hi.trans_le)] at hplace
    rw [packIndex_packShift (hm.imp_right hi'.trans_le)] at hplace'
    obtain rfl : i' = i := by omega
    obtain rfl : k' = k := by omega
    exact hbit
  · exact fun hbit => ⟨hq, i, hi, k, hplace, hbit⟩

/-- Each bit of a decoded code stands in one of its two bytes (43_names.md R182, R190). -/
theorem unpackCode_getLsbD (m : Bool) {l : List Byte} (i : Nat) {k : Nat} (hk : k < 8)
    (hsafe : (l.getD (packIndex i m + 1) 0x00#8).getLsbD 7 = false) :
    (unpackCode m l i).getLsbD k =
      if packShift i ≤ k then (l.getD (packIndex i m) 0x00#8).getLsbD (k - packShift i)
      else (l.getD (packIndex i m + 1) 0x00#8).getLsbD (7 - packShift i + k) := by
  have hshift := packShift_bounds i
  rw [unpackCode, BitVec.getLsbD_or, BitVec.getLsbD_shiftLeft, BitVec.getLsbD_ushiftRight]
  split_ifs with hle
  · have hlow : (l.getD (packIndex i m + 1) 0x00#8).getLsbD (7 - packShift i + k) = false := by
      obtain h7 | h8 : 7 - packShift i + k = 7 ∨ 8 ≤ 7 - packShift i + k := by omega
      · rwa [h7]
      · exact BitVec.getLsbD_of_ge _ _ h8
    rw [hlow, decide_eq_true hk, decide_eq_false (Nat.not_lt.2 hle), Bool.or_false, Bool.not_false, Bool.true_and,
      Bool.true_and]
  · rw [decide_eq_true (Nat.not_le.1 hle), Bool.not_true, Bool.and_false, Bool.false_and, Bool.false_or]

/-- Each code comes back bit by bit. -/
theorem unpackCode_packName {m : Bool} {f : List Byte} (hm : m = true ∨ f.length ≤ 7) {i : Nat} (hi : i < f.length) :
    unpackCode m (packName m f) i = f.getD i 0x00#8 := by
  have hshift := packShift_bounds i
  refine BitVec.eq_of_getLsbD_eq fun k hk => ?_
  rw [unpackCode_getLsbD m i hk (packName_bit7 ..)]
  split_ifs
  · exact packName_getLsbD_of_place hm hi hk (by omega) (by omega)
  · exact packName_getLsbD_of_place hm hi hk (by omega) (by omega)

theorem unpackName_packName {m : Bool} {f : List Byte} (hm : m = true ∨ f.length ≤ 7) :
    unpackName m f.length (packName m f) = f := by
  refine List.ext_getElem (unpackName_length ..) fun i h1 h2 => ?_
  rw [← List.getD_eq_getElem _ 0x00#8 h1, unpackName_getD _ _ h2, unpackCode_packName hm h2,
    List.getD_eq_getElem _ _ h2]

/-- Settles O53: PACKB's bytes are UNPACKB's input, of the length the count asks for, and they decode to the codes. -/
theorem unpackbUndoesPackb : Obligations.UnpackbUndoesPackb := by
  intro s t u f h hmode hlen hs hu hexec hfeed hm harg
  obtain ⟨t', hexec', hdone, hout, -⟩ := packb_completes h hlen hs
  cases hexec'.symm.trans hexec
  have hsize := packName_length_eq_packedSize (pkmode s) f
  have hinput : InputIs (packName (pkmode s) f) u := inputIs_of_feedsTo hdone hout (hsize.trans_le hlen) hfeed
  have hmax : u.bufBytes.val ≤ 4096 := u.bufBytes.2.2
  have hfit : f.length ≤ u.bufBytes.val :=
    (lt_packedSize f.length (pkmode s)).le.trans (hsize.symm.trans_le hinput.2.1)
  have hcount : u.arg.toNat = f.length := by
    rw [harg, BitVec.toNat_ofNat]
    omega
  obtain ⟨v, hv, hvdone, hcodes, -⟩ := unpackb_completes hinput (hcount ▸ hfit) (by rw [hsize, hcount, hm])
    (fun b => packName_safe7) hu
  rw [hcount, hm, unpackName_packName hmode] at hcodes
  exact ⟨v, hv, hvdone, hcodes⟩

end Sys2Proof.Machine
end

section
/-! Every event at the head of `pending`, and so the one step that has no next state (60_exceptions.md R235,
93_implementation_defined.md section 5). -/

namespace Sys2Proof.Machine

section
variable {s : State} {x : HostAccess} {rest : List HostEvent}

theorem step_of_pending_nil (hp : s.pending = []) : step s = .next s := by
  simp only [step, hp]

theorem step_access_of_resetLine (hp : s.pending = .access x :: rest) (hr : s.resetLine = true) :
    step s = .fault .accessDuringReset := by
  simp only [step, hp, hr, if_true]

theorem step_of_pending_assertReset (hp : s.pending = .assertReset :: rest) :
    step s = .next (assertReset (takeEvent s)) := by
  simp only [step, hp]

theorem step_of_pending_releaseReset (hp : s.pending = .releaseReset :: rest) :
    step s = .next (releaseReset (takeEvent s)) := by
  simp only [step, hp]

end

/-- Settles O7: the idle step. -/
theorem idleStepKeepsEverything : Obligations.IdleStepKeepsEverything := fun _ => step_of_pending_nil

/-- Settles O14: every executed access has a next state, and so has every event that is no access. -/
theorem stepStopsOnlyOnAccessDuringReset : Obligations.StepStopsOnlyOnAccessDuringReset := by
  intro s
  cases hp : s.pending with
  | nil => exact .inl ⟨s, step_of_pending_nil hp⟩
  | cons e rest =>
    cases e with
    | access x =>
      cases hr : s.resetLine with
      | true => exact .inr ⟨step_access_of_resetLine hp hr, rfl, x, rest, rfl⟩
      | false =>
        obtain ⟨t, ht⟩ := exec_next (decodeAccess x) { s with pending := rest }
        exact .inl ⟨t, (stepRunsTheDecodedAccess s x rest hp hr).trans ht⟩
    | assertReset => exact .inl ⟨_, step_of_pending_assertReset hp⟩
    | releaseReset => exact .inl ⟨_, step_of_pending_releaseReset hp⟩

end Sys2Proof.Machine
end

section
/-! The fault a command reports (60_exceptions.md R210 to R212): the checks of each command stand in the priority order, and
each is the cause that the table gives its fault. -/

namespace Sys2Proof.Machine

/-! ## The causes -/

theorem find?_cons_eq_ite {α : Type} (p : α → Bool) (a : α) (l : List α) :
    (a :: l).find? p = if p a then some a else l.find? p := by
  rw [List.find?_cons]
  cases p a <;> rfl

/-- The first fault whose cause holds, as a chain of checks in the order of 60_exceptions.md R212; E_ILLEGAL is no fault of a
command of the map. -/
theorem find?_faultCause (i : Instr) (s : State) :
    faultPriority.find? (faultCause i s) =
      if faultCause i s .bounds then some .bounds else if faultCause i s .short then some .short
      else if faultCause i s .range then some .range else if faultCause i s .length then some .length
      else if faultCause i s .data8 then some .data8 else if faultCause i s .overflow then some .overflow else none := by
  have hillegal : ¬ faultCause i s .illegal = true := Bool.false_ne_true
  simp only [faultPriority, find?_cons_eq_ite, List.find?_nil, if_neg hillegal]

/-- The table's count of ASCII codes is the number of codes NAMEENC32 keeps (43_names.md R171). -/
theorem inputAsciiCount_eq (s : State) : inputAsciiCount s = (keptCodes (inputBytes s)).length := by
  simp only [inputAsciiCount, keptCodes, inputBytes, Memory.readBytes, List.filter_map, List.length_map, Nat.zero_add,
    Function.comp_def, isSafe7_eq]

/-- E_DATA8's cause in the table is the check of a body that reads its whole input. -/
theorem inputHasBit7_eq (s : State) : inputHasBit7 s = !(inputBytes s).all isSafe7 := by
  simp only [inputHasBit7, inputBytes, Memory.readBytes, List.all_map, List.not_all_eq_any_not, Nat.zero_add,
    Function.comp_def, isSafe7_eq, Bool.not_not]

theorem inputHasBit7_of_two {s : State} (h : ilenLen s = 2) :
    inputHasBit7 s = !(isSafe7 (inputByte s 0) && isSafe7 (inputByte s 1)) := by
  simp [inputHasBit7_eq, inputBytes, inputByte, Memory.readBytes, h, List.range_succ]

theorem inputHasBit7_of_three {s : State} (h : ilenLen s = 3) :
    inputHasBit7 s = !(isSafe7 (inputByte s 0) && isSafe7 (inputByte s 1) && isSafe7 (inputByte s 2)) := by
  simp [inputHasBit7_eq, inputBytes, inputByte, Memory.readBytes, h, List.range_succ, Bool.and_assoc]

/-! ## The fault of a result -/

/-- The fault a command's result stands for: none when the command completes. -/
def reportedFault : Except CmdFault Writes → Option CmdFault
  | .error f => some f
  | .ok _ => none

@[simp] theorem reportedFault_error (f : CmdFault) : reportedFault (.error f) = some f := rfl

@[simp] theorem reportedFault_ok (w : Writes) : reportedFault (.ok w) = none := rfl

theorem reportedFault_checkedBody (body : State → Except CmdFault Writes) (s : State) :
    reportedFault (checkedBody body s) =
      if ilenLen s > s.bufBytes.val then some .bounds else reportedFault (body s) := apply_ite ..

/-! ## The checks of each body, in the table's terms (60_exceptions.md R210) -/

/-- A body with one check. -/
theorem reportedFault_check (c : Prop) [Decidable c] (f : CmdFault) (w : Writes) :
    reportedFault (if c then .error f else .ok w) = if c then some f else none := apply_ite ..

/-- A body that checks ILEN.LEN and then bit 7 of every byte need look at the bytes of an input of that length only. -/
theorem reportedFault_length_data8 {s : State} {n : Nat} {bit7 : Bool} (h : ilenLen s = n → inputHasBit7 s = bit7)
    (w : Writes) :
    reportedFault (if ilenLen s ≠ n then .error .length else if bit7 then .error .data8 else .ok w) =
      if ilenLen s ≠ n then some .length else if inputHasBit7 s then some .data8 else none := by
  by_cases hn : ilenLen s = n
  · rw [if_neg (not_not.2 hn), if_neg (not_not.2 hn), reportedFault_check, h hn]
  · rw [if_pos hn, if_pos hn, reportedFault_error]

section
variable (s : State)

@[simp] theorem reportedFault_nopBody : reportedFault (nopBody s) = none := rfl

@[simp] theorem reportedFault_cksumBody :
    reportedFault (cksumBody s) = if ilenLen s < 2 then some .short else none := reportedFault_check ..

@[simp] theorem reportedFault_withckBody :
    reportedFault (withckBody s) = if ilenLen s < 2 then some .short else none := reportedFault_check ..

@[simp] theorem reportedFault_wrapBody :
    reportedFault (wrapBody s) = if ilenLen s + 6 > s.bufBytes.val then some .overflow else none :=
  reportedFault_check ..

@[simp] theorem reportedFault_framedecBody : reportedFault (framedecBody s) = none := by
  rw [framedecBody]
  split <;> rfl

@[simp] theorem reportedFault_enc14hlBody :
    reportedFault (enc14hlBody s) = if s.arg.toNat ≥ 16384 then some .range else none := reportedFault_check ..

@[simp] theorem reportedFault_enc14lhBody :
    reportedFault (enc14lhBody s) = if s.arg.toNat ≥ 16384 then some .range else none := reportedFault_check ..

@[simp] theorem reportedFault_dec14hlBody :
    reportedFault (dec14hlBody s) =
      if ilenLen s ≠ 2 then some .length else if inputHasBit7 s then some .data8 else none :=
  reportedFault_length_data8 inputHasBit7_of_two _

@[simp] theorem reportedFault_dec14lhBody :
    reportedFault (dec14lhBody s) =
      if ilenLen s ≠ 2 then some .length else if inputHasBit7 s then some .data8 else none :=
  reportedFault_length_data8 inputHasBit7_of_two _

@[simp] theorem reportedFault_dec21Body :
    reportedFault (dec21Body s) =
      if ilenLen s ≠ 3 then some .length else if inputHasBit7 s then some .data8 else none :=
  reportedFault_length_data8 inputHasBit7_of_three _

@[simp] theorem reportedFault_nameenc32Body :
    reportedFault (nameenc32Body s) = if inputAsciiCount s > 32 then some .length else none := by
  rw [nameenc32Body, reportedFault_check, inputAsciiCount_eq]

@[simp] theorem reportedFault_namedec32Body :
    reportedFault (namedec32Body s) =
      if ilenLen s ≠ 32 then some .length else if inputHasBit7 s then some .data8 else none :=
  reportedFault_length_data8 (fun _ => inputHasBit7_eq s) _

@[simp] theorem reportedFault_packbBody :
    reportedFault (packbBody s) =
      if Spec.packedSize (ilenLen s) (pkmode s) > s.bufBytes.val then some .overflow else none := by
  rw [packbBody, reportedFault_check, packedLength_eq_packedSize]

@[simp] theorem reportedFault_unpackbBody :
    reportedFault (unpackbBody s) =
      if s.arg.toNat > s.bufBytes.val then some .range
      else if ilenLen s ≠ Spec.packedSize s.arg.toNat (pkmode s) then some .length
      else if inputHasBit7 s then some .data8 else none := by
  rw [← packedLength_eq_packedSize, ← reportedFault_length_data8 (fun _ => inputHasBit7_eq s)]
  exact apply_ite ..

end

/-- Every command makes its checks in the priority order, and each check is the table's cause of its fault. NOP, ENC14HL and
ENC14LH have no check of ILEN.LEN before the body (40_control.md R90). -/
theorem find?_faultCause_eq {i : Instr} {code : Byte} (hc : commandCode i = some code) (s : State) :
    faultPriority.find? (faultCause i s) = reportedFault (commandResult i s) := by
  rw [find?_faultCause]
  cases i <;> simp only [commandCode, reduceCtorEq] at hc
  case nop | enc14hl | enc14lh => simp [faultCause, commandResult]
  all_goals
    rw [commandResult, reportedFault_checkedBody]
    simp [faultCause]

/-! ## The fault STATUS tells -/

/-- Settles O27: the command ends with its result, and STATUS tells that result's fault (60_exceptions.md R211), or that there is
none (40_control.md R91). -/
theorem reportedFaultIsTheFirstThatHolds : Obligations.ReportedFaultIsTheFirstThatHolds := by
  intro i code s t hc h
  cases (exec_command hc s).symm.trans h
  rw [find?_faultCause_eq hc s]
  cases hr : commandResult i s with
  | ok w =>
    obtain ⟨-, -, herr, hecode, hseen, -⟩ := completes_perform code w s
    exact ⟨hecode, herr, hseen⟩
  | error f =>
    obtain ⟨-, -, herr, hecode, hseen, -⟩ := faultsWith_faultEntry code f s
    refine ⟨hecode.trans ?_, herr, hseen.trans ?_⟩
    · cases f <;> rfl
    · cases f <;> simp [faultClass1]

end Sys2Proof.Machine
end

section
/-! The reset input (70_reset_and_hazards.md R240, R242): asserting it clears the block, releasing it moves the line alone, and an
access while it is asserted has no step. -/

namespace Sys2Proof.Machine

theorem takeEvent_of_pending_cons {s : State} {e : HostEvent} {rest : List HostEvent} (hp : s.pending = e :: rest) :
    takeEvent s = { s with pending := rest } := by
  rw [takeEvent, hp, List.tail_cons]

theorem rawReg_assertReset (r : Reg) (s : State) : rawReg r (assertReset s) = 0#32 := by cases r <;> rfl

/-- Settles O8: asserting gives the cleared block, whose empty buffers read 0x00 everywhere; the host's side is the state's own. -/
theorem resetInputClearsTheWholeBlock : Obligations.ResetInputClearsTheWholeBlock := by
  intro s rest
  refine ⟨fun hp => ?_, fun hp => ?_⟩
  · have hstep := step_of_pending_assertReset hp
    rw [takeEvent_of_pending_cons hp] at hstep
    exact ⟨_, hstep, fun r => rawReg_assertReset r _, Memory.read_nil, Memory.read_nil, rfl, rfl, rfl, rfl⟩
  · rw [step_of_pending_releaseReset hp, takeEvent_of_pending_cons hp, releaseReset]

/-- Settles O9: the asserted line stops the machine before the access is decoded. -/
theorem accessDuringResetStops : Obligations.AccessDuringResetStops :=
  fun _ _ _ hp hr => step_access_of_resetLine hp hr

end Sys2Proof.Machine
end
